-- ==== Sys2Proof/Word.lean ====
section
/-! DEFINITION. The sizes of the data: a byte, a 64-bit lane, a 64-bit command word, a permutation state of 25 lanes.
00_scope.md R4 (`W` = 64, `NLANES` = 25), R5 (`CMDW` = 64), R6 (bit 0 is the least significant bit). -/

namespace Sys2Proof

/-- A byte, the unit of every stream (20_memory.md R37). -/
abbrev Byte := BitVec 8

/-- A lane: a 64-bit unsigned value (00_scope.md R6). -/
abbrev Lane := BitVec 64

/-- A command word of format `CMD64` (30_encoding.md R50). -/
abbrev CmdWord := BitVec 64

/-- A permutation state: 25 independent 64-bit lanes `A[0]` to `A[24]` (10_state.md R11). -/
abbrev Lanes := Vector Lane 25

/-- A pad buffer, `ipad` or `opad`: 144 bytes of storage (`PADCAP`, 00_scope.md R5; 10_state.md R18). -/
abbrev PadBuf := Vector Byte 144

end Sys2Proof
end

