-- ==== Sys2Proof/Config.lean ====
section
/-! DEFINITION. What the spec leaves open: the contents of the two contexts after a reset (10_state.md R24, 93 U8:
"any value ... quantify over them, not zero them"). Each is a constant without a body, so nothing can be proved about its
value. The first argument counts the resets, so that a later reset may leave other contents than an earlier one. Log entry 1. -/

namespace Sys2Proof

/-- The four supported modes, "a closed tagged-variant type {SHA3_224, SHA3_256, SHA3_384, SHA3_512}" (30_encoding.md R53).
As the stored 2-bit `mode` field every value is legal (93 U7), so the type has exactly these four. -/
inductive Mode where
  | sha3_224
  | sha3_256
  | sha3_384
  | sha3_512
  deriving DecidableEq, Repr, Inhabited

/-- Which of the two architectural sponge instances (10_state.md R10). -/
inductive Context where
  /-- The stand-alone sponge context `S`. -/
  | S
  /-- The sponge `HM.inner` embedded in the HMAC context. -/
  | inner
  deriving DecidableEq, Repr

namespace Config

/-- Lane `i` of context `x` after the `n`-th reset: unspecified (R24). FREE VALUE, log entry 1. -/
opaque resetLane (n : Nat) (x : Context) (i : Nat) : Lane

/-- `X.mode` after the `n`-th reset: unspecified (R24). FREE VALUE, log entry 1. -/
opaque resetMode (n : Nat) (x : Context) : Mode

/-- `X.rate` after the `n`-th reset, an 11-bit field (R13): unspecified (R24). FREE VALUE, log entry 1. -/
opaque resetRate (n : Nat) (x : Context) : BitVec 11

/-- `X.capacity` after the `n`-th reset, an 11-bit field (R13): unspecified (R24). FREE VALUE, log entry 1. -/
opaque resetCapacity (n : Nat) (x : Context) : BitVec 11

/-- `X.digest_length` after the `n`-th reset, a 7-bit field (R13): unspecified (R24). FREE VALUE, log entry 1. -/
opaque resetDigestLength (n : Nat) (x : Context) : BitVec 7

/-- `X.block_size` after the `n`-th reset, an 8-bit field (R13): unspecified (R24). FREE VALUE, log entry 1. -/
opaque resetBlockSize (n : Nat) (x : Context) : BitVec 8

/-- `X.pending_len` after the `n`-th reset, an 8-bit field (R13): unspecified (R24). FREE VALUE, log entry 1. -/
opaque resetPendingLen (n : Nat) (x : Context) : BitVec 8

/-- Byte `k` of `X.pending` after the `n`-th reset: unspecified (R24). FREE VALUE, log entry 1. -/
opaque resetPendingByte (n : Nat) (x : Context) (k : Nat) : Byte

/-- `HM.mode` after the `n`-th reset: unspecified (R24). FREE VALUE, log entry 1. -/
opaque resetHmacMode (n : Nat) : Mode

/-- `HM.block_size` after the `n`-th reset, an 8-bit field (R18): unspecified (R24). FREE VALUE, log entry 1. -/
opaque resetHmacBlockSize (n : Nat) : BitVec 8

/-- Byte `j` of `HM.ipad` after the `n`-th reset: unspecified (R24). FREE VALUE, log entry 1. -/
opaque resetIpadByte (n : Nat) (j : Nat) : Byte

/-- Byte `j` of `HM.opad` after the `n`-th reset: unspecified (R24). FREE VALUE, log entry 1. -/
opaque resetOpadByte (n : Nat) (j : Nat) : Byte

end Config

end Sys2Proof
end

