-- ==== Sys2Proof/Syntax.lean ====
section
/-! DEFINITION. The eight host commands (30_encoding.md R50 to R52), one constructor per row of the opcode table. -/

namespace Sys2Proof

/-- The operand fields of a command word (R50): every field of `CMD64` but `OP`, which is the constructor of `Instr`, and
`RSV`, which is 0 in every legal word (R56). The fields a command does not use stand in it too: their values have no
effect on the command (R57), but `IBP`, `DLEN`, `KBP`, `KLEN` frame the payload of every command (20_memory.md R31). -/
structure Fields where
  /-- `MODE`, bits [7:4]: the mode tag, 0 to 15 (R53). -/
  mode : Nat
  /-- `IBP`, bit 8: an input buffer is present (R54). -/
  ibp : Bool
  /-- `OBP`, bit 9: an output buffer is present (R54). -/
  obp : Bool
  /-- `KBP`, bit 10: a key buffer is present (R54). -/
  kbp : Bool
  /-- `DLEN`, bits [39:16]: message payload length in bytes (R55). -/
  dlen : Nat
  /-- `KLEN`, bits [63:40]: key length in bytes (R55). -/
  klen : Nat
  deriving DecidableEq, Repr

/-- The instructions: the eight commands of R52, "the complete public surface". -/
inductive Instr where
  /-- `OP` = 0x1, 41_sponge.md R100. -/
  | spongeInit (f : Fields)
  /-- `OP` = 0x2, 41_sponge.md R101. -/
  | spongeUpdate (f : Fields)
  /-- `OP` = 0x3, 41_sponge.md R102. -/
  | spongeFinal (f : Fields)
  /-- `OP` = 0x4, 41_sponge.md R103. -/
  | hash (f : Fields)
  /-- `OP` = 0x5, 42_hmac.md R122. -/
  | hmacInit (f : Fields)
  /-- `OP` = 0x6, 42_hmac.md R123. -/
  | hmacUpdate (f : Fields)
  /-- `OP` = 0x7, 42_hmac.md R124. -/
  | hmacFinal (f : Fields)
  /-- `OP` = 0x8, 42_hmac.md R125. -/
  | hmac (f : Fields)
  deriving DecidableEq, Repr

namespace Instr

/-- The operand fields of a command, whichever it is. -/
def fields : Instr → Fields
  | .spongeInit f => f
  | .spongeUpdate f => f
  | .spongeFinal f => f
  | .hash f => f
  | .hmacInit f => f
  | .hmacUpdate f => f
  | .hmacFinal f => f
  | .hmac f => f

end Instr

end Sys2Proof
end

