-- ==== Sys2Proof/WellFormed.lean ====
section
/-! DEFINITION. Which instructions a command word can carry: each field fits its bits (30_encoding.md R50, R51). That a
present payload has exactly the announced length (R51's condition) is a matter of the channels, not of the word: it is
`Machine.framed` of Machine/Operands.lean. -/

namespace Sys2Proof

/-- `MODE` has 4 bits: "mode : 0..15" (R51). -/
def Fields.modeFits (f : Fields) : Bool := f.mode < 2 ^ 4

/-- `DLEN` has 24 bits: "dlen : 0 .. 2^24-1" (R51). -/
def Fields.dlenFits (f : Fields) : Bool := f.dlen < 2 ^ 24

/-- `KLEN` has 24 bits: "klen : 0 .. 2^24-1" (R51). -/
def Fields.klenFits (f : Fields) : Bool := f.klen < 2 ^ 24

/-- Every field fits its bits of the command word. -/
def Fields.wellFormed (f : Fields) : Bool := f.modeFits && f.dlenFits && f.klenFits

/-- An instruction some command word carries. -/
def Instr.wellFormed (i : Instr) : Bool := i.fields.wellFormed

end Sys2Proof
end

