-- ==== Sys2Proof/Decode.lean ====
section
/-! DEFINITION. Decoding and encoding of command words (30_encoding.md R50 to R57, R62). Decoding is total: every 64-bit
word is one of the eight commands or illegal under a name. -/

namespace Sys2Proof

/-- Why a word is no command (R56). Both give the same status `IllegalCommand`. -/
inductive Illegal where
  /-- `OP` is 0x0 or 0x9 to 0xF (R52, R56; 93 U1). -/
  | reservedOpcode (op : Nat)
  /-- `RSV` is not 0 (R56; 93 U2). -/
  | reservedBits (rsv : Nat)
  /-- Fewer than the 8 bytes of a command word were given to the byte decoder (log entry 11). -/
  | truncated
  deriving DecidableEq, Repr

/-- The `len` bits of `w` from bit `lo` upwards, as an unsigned number: `w[lo+len-1 : lo]` (00_scope.md R6). -/
def bitField (w : CmdWord) (lo len : Nat) : Nat := w.toNat / 2 ^ lo % 2 ^ len

/-- The operand fields of a word at their places of R50, read from any word, legal or not: the payload is framed by the
word alone (R62; 20_memory.md R31). -/
def fieldsOf (w : CmdWord) : Fields where
  mode := bitField w 4 4
  ibp := bitField w 8 1 == 1
  obp := bitField w 9 1 == 1
  kbp := bitField w 10 1 == 1
  dlen := bitField w 16 24
  klen := bitField w 40 24

/-- The opcode map of R52: `OP` to the command. -/
def instrOf (op : Nat) (f : Fields) : Option Instr :=
  match op with
  | 1 => some (.spongeInit f)
  | 2 => some (.spongeUpdate f)
  | 3 => some (.spongeFinal f)
  | 4 => some (.hash f)
  | 5 => some (.hmacInit f)
  | 6 => some (.hmacUpdate f)
  | 7 => some (.hmacFinal f)
  | 8 => some (.hmac f)
  | _ => none

/-- The verdict on a command word (R52, R56, R62). -/
def decode (w : CmdWord) : Except Illegal Instr :=
  match instrOf (bitField w 0 4) (fieldsOf w) with
  | none => .error (.reservedOpcode (bitField w 0 4))
  | some i => if bitField w 11 5 = 0 then .ok i else .error (.reservedBits (bitField w 11 5))

/-- A command word from its 8 bytes: "byte 0 is bits [7:0]" (R50). -/
def wordOfBytes : List Byte → Option (CmdWord × List Byte)
  | b0 :: b1 :: b2 :: b3 :: b4 :: b5 :: b6 :: b7 :: rest =>
    some (b7 ++ b6 ++ b5 ++ b4 ++ b3 ++ b2 ++ b1 ++ b0, rest)
  | _ => none

/-- Decoding of the first 8 bytes of a byte sequence; the answer carries the bytes after them. -/
def decodeBytes (bs : List Byte) : Except Illegal (Instr × List Byte) :=
  match wordOfBytes bs with
  | none => .error .truncated
  | some (w, rest) =>
    match decode w with
    | .ok i => .ok (i, rest)
    | .error e => .error e

/-- The `OP` value of a command (R52). -/
def Instr.opcode : Instr → Nat
  | .spongeInit _ => 0x1
  | .spongeUpdate _ => 0x2
  | .spongeFinal _ => 0x3
  | .hash _ => 0x4
  | .hmacInit _ => 0x5
  | .hmacUpdate _ => 0x6
  | .hmacFinal _ => 0x7
  | .hmac _ => 0x8

/-- A presence bit as a number (R54). -/
def presenceBit (b : Bool) : Nat := if b then 1 else 0

/-- The word of a command with `RSV` = 0, as the number R50 gives it: `OP | MODE<<4 | IBP<<8 | OBP<<9 | KBP<<10 | DLEN<<16 |
KLEN<<40`. The fields of a well-formed command do not overlap, so the sum is the bitwise or. -/
def encode (i : Instr) : CmdWord :=
  let f := i.fields
  BitVec.ofNat 64 (i.opcode + 2 ^ 4 * f.mode + 2 ^ 8 * presenceBit f.ibp + 2 ^ 9 * presenceBit f.obp
    + 2 ^ 10 * presenceBit f.kbp + 2 ^ 16 * f.dlen + 2 ^ 40 * f.klen)

/-- The 64-bit word of an opcode-table row's `nbits` bits, every bit above them 0. -/
def tableWord (nbits w : Nat) : CmdWord := BitVec.ofNat 64 (w % 2 ^ nbits)

/-- The instruction the decoder reads from an opcode-table row's word. -/
def decodeTableWord (nbits w : Nat) : Option Instr :=
  match decode (tableWord nbits w) with
  | .ok i => some i
  | .error _ => none

end Sys2Proof
end

