-- ==== Sys2Proof/Machine/State.lean ====
section
/-! DEFINITION. The state of one CORE as plain data: the two contexts of 10_state.md R10, the five channels of
20_memory.md R30 with what is on them, and the reset input of 70_reset_and_hazards.md R170. -/

namespace Sys2Proof.Machine

/-- The phase of a sponge instance, its only flag (10_state.md R16). The encoding 3 never occurs (93 U6). -/
inductive Phase where
  /-- Never initialized since reset (0). -/
  | uninit
  /-- Between a successful INIT and a successful FINAL (1). -/
  | absorbing
  /-- After a successful FINAL (2). -/
  | squeezed
  deriving DecidableEq, Repr

/-- The status a command ends with (30_encoding.md R58, 60_exceptions.md R140). Codes 7 to 15 are never produced (93 U5). -/
inductive Status where
  /-- 0: "the command did everything its rule says". -/
  | ok
  /-- 1: "mode outside the four supported values" (R141). -/
  | invalidMode
  /-- 2: a required buffer is absent, one-shot or HMAC interface (R142). -/
  | invalidArgument
  /-- 3: an update "given a non-empty length with a null/absent buffer" (R144). -/
  | nullInput
  /-- 4: sponge finalize with the output buffer absent (R145). -/
  | nullOutput
  /-- 5: the addressed instance is not absorbing (R146). -/
  | invalidState
  /-- 6: an undecodable command word (30_encoding.md R56). -/
  | illegalCommand
  deriving DecidableEq, Repr

/-- A sponge instance (10_state.md R13): `S`, `HM.inner`, or a transient one inside a command. -/
structure Sponge where
  /-- The permutation state `A[0..24]`. -/
  A : Lanes
  /-- The mode of the last INIT. -/
  mode : Mode
  /-- The rate in bits. -/
  rate : Nat
  /-- The capacity in bits. No rule reads it (R14). -/
  capacity : Nat
  /-- The digest length in bytes. -/
  digestLength : Nat
  /-- The block size in bytes. -/
  blockSize : Nat
  /-- The partial-block buffer, the bytes in arrival order (R15). -/
  pending : List Byte
  /-- The number of bytes in `pending`. -/
  pendingLen : Nat
  /-- The phase (R16). -/
  phase : Phase
  deriving DecidableEq, Repr

/-- An HMAC instance (10_state.md R18): `HM`, or a transient one inside the one-shot `HMAC`. -/
structure Hmac where
  /-- The mode of the last HMAC_INIT. -/
  mode : Mode
  /-- The block size of that mode in bytes. -/
  blockSize : Nat
  /-- The padded key XOR 0x36, then zeros. -/
  ipad : PadBuf
  /-- The padded key XOR 0x5C, then zeros. -/
  opad : PadBuf
  /-- The embedded inner sponge. -/
  inner : Sponge
  deriving DecidableEq, Repr

/-- The state of the machine. -/
structure State where
  /-- The stand-alone sponge context (R10). -/
  S : Sponge
  /-- The HMAC context (R10). -/
  HM : Hmac
  /-- Channel `CMD`: the command words the host has offered and the CORE has not taken, the oldest first (R30, R175). -/
  cmd : List CmdWord
  /-- Channel `DIN`: the message bytes offered and not taken, the first sent first (R30, R33). Log entry 2. -/
  din : List Byte
  /-- Channel `KIN`: the key bytes offered and not taken, the first sent first (R30, R33). Log entry 2. -/
  kin : List Byte
  /-- Channel `DOUT`: the bytes emitted since reset, in order (R30, R59). Log entry 9. -/
  dout : List Byte
  /-- Channel `RESP`: the statuses given since reset, in order (R30, R58). Log entry 9. -/
  resp : List Status
  /-- The host takes bytes on `DOUT` (R174: while it does not, a command that emits does not complete). An input, log entry 4. -/
  outReady : Bool
  /-- The reset input is asserted (R170). An input, log entry 8. -/
  rst : Bool
  /-- The MODEL's own field, not the spec's: how many resets there were since power-on, which selects the free values that
  the next reset leaves (log entry 1). -/
  resets : Nat
  deriving DecidableEq, Repr

/-- No rule of the spec stops the machine: "No hang, no undefined result: every command is a total function"
(00_scope.md section 5, 70_reset_and_hazards.md R172). So there is no fault reason, and no step can answer a fault. Log entry 13. -/
inductive Fault where
  deriving DecidableEq, Repr

/-- Why a step has no meaning. -/
inductive Refusal where
  /-- Raised only by an arm of `exec` whose instruction has no meaning in the model yet. No arm raises it now. Safe: nothing
  is proved about such an instruction. -/
  | notModelled (mnemonic : String)
  deriving DecidableEq, Repr

namespace State

/-- Sponge context `x` after the `n`-th reset (10_state.md R24): `phase` is `UNINIT`, all else unspecified. `pending` is a
sequence of `pending_len` bytes (R13, R15). -/
def resetSponge (n : Nat) (x : Context) : Sponge where
  A := Vector.ofFn fun i => Config.resetLane n x i.val
  mode := Config.resetMode n x
  rate := (Config.resetRate n x).toNat
  capacity := (Config.resetCapacity n x).toNat
  digestLength := (Config.resetDigestLength n x).toNat
  blockSize := (Config.resetBlockSize n x).toNat
  pending := (List.range (Config.resetPendingLen n x).toNat).map (Config.resetPendingByte n x)
  pendingLen := (Config.resetPendingLen n x).toNat
  phase := .uninit

/-- The HMAC context after the `n`-th reset (10_state.md R24): its inner phase is `UNINIT`, all else unspecified. -/
def resetHmac (n : Nat) : Hmac where
  mode := Config.resetHmacMode n
  blockSize := (Config.resetHmacBlockSize n).toNat
  ipad := Vector.ofFn fun j => Config.resetIpadByte n j.val
  opad := Vector.ofFn fun j => Config.resetOpadByte n j.val
  inner := resetSponge n .inner

/-- The state after the `n`-th reset (10_state.md R24; 70_reset_and_hazards.md R170): the CORE waits for a command word, no
response is pending, and the channels are empty (log entry 3). -/
def afterReset (n : Nat) (outReady : Bool) : State where
  S := resetSponge n .S
  HM := resetHmac n
  cmd := []
  din := []
  kin := []
  dout := []
  resp := []
  outReady := outReady
  rst := false
  resets := n

/-- The machine right after its first reset. The host takes output bytes (log entry 4). -/
def reset : State := afterReset 0 true

end State

end Sys2Proof.Machine
end

