-- ==== Sys2Proof/Machine/Operands.lean ====
section
/-! DEFINITION. The operand forms of the commands: the mode tag and its row of the mode table (30_encoding.md R53,
41_sponge.md R90, R91), the payload streams and their framing (20_memory.md R31, 30_encoding.md R54, R55), and the byte
order of lanes (20_memory.md R32). -/

namespace Sys2Proof.Machine

/-- The mode a tag selects (R53, R91): tags 4 to 15 select none. -/
def modeOfTag (tag : Nat) : Option Mode :=
  match tag with
  | 0 => some .sha3_224
  | 1 => some .sha3_256
  | 2 => some .sha3_384
  | 3 => some .sha3_512
  | _ => none

/-- `rate` in bits, mode table of R90. -/
def modeRate : Mode → Nat
  | .sha3_224 => 1152
  | .sha3_256 => 1088
  | .sha3_384 => 832
  | .sha3_512 => 576

/-- `capacity` in bits, mode table of R90. -/
def modeCapacity : Mode → Nat
  | .sha3_224 => 448
  | .sha3_256 => 512
  | .sha3_384 => 768
  | .sha3_512 => 1024

/-- `block_size` in bytes, mode table of R90. -/
def modeBlockSize : Mode → Nat
  | .sha3_224 => 144
  | .sha3_256 => 136
  | .sha3_384 => 104
  | .sha3_512 => 72

/-- `digest_length` in bytes, mode table of R90. -/
def modeDigestLength : Mode → Nat
  | .sha3_224 => 28
  | .sha3_256 => 32
  | .sha3_384 => 48
  | .sha3_512 => 64

/-- How many bytes follow a word on `DIN`: `DLEN` if `IBP = 1`, else none (R31). -/
def dinCount (f : Fields) : Nat := if f.ibp then f.dlen else 0

/-- How many bytes follow a word on `KIN`: `KLEN` if `KBP = 1`, else none (R31). -/
def kinCount (f : Fields) : Nat := if f.kbp then f.klen else 0

/-- `MemRead(stream, n)` takes the next `n` bytes (00_scope.md R8): whether the stream holds that many. -/
def holds : Nat → List Byte → Bool
  | 0, _ => true
  | _ + 1, [] => false
  | n + 1, _ :: rest => holds n rest

/-- The whole announced payload of a command is on the channels (70_reset_and_hazards.md R174). -/
def framed (f : Fields) (s : State) : Bool := holds (dinCount f) s.din && holds (kinCount f) s.kin

/-- The message buffer of a command: absent, or the next `DLEN` bytes of `DIN` (R54; 30_encoding.md R51). -/
def dataOperand (f : Fields) (s : State) : Option (List Byte) :=
  if f.ibp then some (s.din.take f.dlen) else none

/-- The key buffer of a command: absent, or the next `KLEN` bytes of `KIN` (R54; 30_encoding.md R51). -/
def keyOperand (f : Fields) (s : State) : Option (List Byte) :=
  if f.kbp then some (s.kin.take f.klen) else none

/-- `LE64(b)`, the lane of up to 8 bytes, least significant byte first (R32; 41_sponge.md R93); missing bytes are 0. -/
def le64 : List Byte → Lane
  | [] => 0
  | b :: rest => b.setWidth 64 ||| (le64 rest <<< 8)

/-- State byte `SB(A, k)`: byte `k mod 8` of lane `k div 8`, counted from the least significant end (R32). The rules use it
for `k < 200` only (log entry 6). -/
def stateByte (A : Lanes) (k : Nat) : Byte := ((A[k / 8]?.getD 0) >>> (8 * (k % 8))).setWidth 8

/-- The first `n` state bytes in order (R33). -/
def stateBytes (A : Lanes) (n : Nat) : List Byte := (List.range n).map (stateByte A)

end Sys2Proof.Machine
end

