-- ==== Sys2Proof/Machine/Flags.lean ====
section
/-! DEFINITION. The flag of an instance, `phase` (10_state.md R16), the checks a command makes (60_exceptions.md R141 to
R147), and the numbers of statuses and phases (30_encoding.md R58, 10_state.md R13). -/

namespace Sys2Proof.Machine

/-- The 4-bit code of a status on `RESP` (R58). -/
def statusCode : Status → BitVec 4
  | .ok => 0
  | .invalidMode => 1
  | .invalidArgument => 2
  | .nullInput => 3
  | .nullOutput => 4
  | .invalidState => 5
  | .illegalCommand => 6

/-- The 2-bit code of a phase (10_state.md R13). -/
def phaseCode : Phase → BitVec 2
  | .uninit => 0
  | .absorbing => 1
  | .squeezed => 2

/-- `if not c: raise st` (00_scope.md R8). -/
def require (c : Bool) (st : Status) : Except Status Unit := if c then .ok () else .error st

/-- The state check of UPDATE and FINAL (R146). -/
def requireAbsorbing (X : Sponge) : Except Status Unit := require (X.phase == .absorbing) .invalidState

/-- The input check of UPDATE (R144): absent with `dlen = 0` is no error. -/
def requireInput (data : Option (List Byte)) (dlen : Nat) : Except Status Unit :=
  require (data.isSome || dlen == 0) .nullInput

/-- The mode check (R141): the mode of the tag, or `InvalidMode`. -/
def requireMode (tag : Nat) : Except Status Mode :=
  match modeOfTag tag with
  | some m => .ok m
  | none => .error .invalidMode

/-- The check of a buffer the one-shot or HMAC interface needs (R142): its bytes, or `InvalidArgument`. -/
def requireBuffer (b : Option (List Byte)) : Except Status (List Byte) :=
  match b with
  | some bytes => .ok bytes
  | none => .error .invalidArgument

end Sys2Proof.Machine
end

