-- ==== Sys2Proof/Machine/Permutation.lean ====
section
/-! DEFINITION. The permutation engine Keccak-f[1600] (40_permutation.md R70 to R82): the internal operations THETA, RHO,
PI, CHI, IOTA, ROUND, PERMUTE. None is a command. -/

namespace Sys2Proof.Machine

/-- `ROTL64(a, n)` of 00_scope.md R7: bit `i` of `a` becomes bit `(i + n) mod 64`. -/
def rotl64 (a : Lane) (n : Nat) : Lane := a.rotateLeft n

/-- `A[x,y] = A[x + 5*y]`, the column and row reduced mod 5 (10_state.md R12; R71). -/
def laneAt (A : Lanes) (x y : Nat) : Lane := A[x % 5 + 5 * (y % 5)]'(by omega)

/-- The parity `C[x]` of column `x` (R73). -/
def columnParity (A : Lanes) (x : Nat) : Lane :=
  laneAt A x 0 ^^^ laneAt A x 1 ^^^ laneAt A x 2 ^^^ laneAt A x 3 ^^^ laneAt A x 4

/-- The five column parities `C[0..4]`, all from the input state (R73). -/
def columnParities (A : Lanes) : Vector Lane 5 := Vector.ofFn fun x => columnParity A x.val

/-- `D[x] = C[(x+4) mod 5] ^ ROTL64(C[(x+1) mod 5], 1)` (R73). -/
def thetaEffect (C : Vector Lane 5) : Vector Lane 5 :=
  Vector.ofFn fun x => C[(x.val + 4) % 5]'(by omega) ^^^ rotl64 (C[(x.val + 1) % 5]'(by omega)) 1

/-- `THETA` (R73): `A[x,y] <- A[x,y] ^ D[x]`. -/
def theta (A : Lanes) : Lanes :=
  let D := thetaEffect (columnParities A)
  Vector.ofFn fun i => A[i] ^^^ D[i.val % 5]'(by omega)

/-- The `RHO` table as R75 prints it: row `y` of the offsets of the lanes `A[0,y]` to `A[4,y]`. -/
def rhoRows : Vector (Vector Nat 5) 5 :=
  #v[#v[0, 1, 62, 28, 27],
     #v[36, 44, 6, 55, 20],
     #v[3, 10, 43, 25, 39],
     #v[41, 45, 15, 21, 8],
     #v[18, 2, 61, 56, 14]]

/-- `RHO[i]`, the offset of lane `A[i]` (R75): column `i mod 5` of row `i div 5` (R71). -/
def rhoOffset (i : Fin 25) : Nat := rhoRows[i.val / 5][i.val % 5]

/-- `RHO` (R74): `A[i] <- ROTL64(A[i], RHO[i])`. -/
def rho (A : Lanes) : Lanes := Vector.ofFn fun i => rotl64 A[i] (rhoOffset i)

/-- `PI` (R76) by destination: `B[X,Y] = A[(X + 3*Y) mod 5, X]`. No bit of a lane changes. -/
def pi (A : Lanes) : Lanes := Vector.ofFn fun j => laneAt A (j.val % 5 + 3 * (j.val / 5)) (j.val % 5)

/-- `CHI` (R78): `A[x,y] <- B[x,y] ^ (~B[x+1,y] & B[x+2,y])`, the columns mod 5. -/
def chi (B : Lanes) : Lanes :=
  Vector.ofFn fun i =>
    let x := i.val % 5
    let y := i.val / 5
    laneAt B x y ^^^ (~~~ laneAt B (x + 1) y &&& laneAt B (x + 2) y)

/-- The `RC` table as R80 prints it: row `k` holds `RC[k]` and `RC[k + 12]`. -/
def roundConstantRows : Vector (Lane × Lane) 12 :=
  #v[(0x1, 0x8000808B),
     (0x8082, 0x800000000000008B),
     (0x800000000000808A, 0x8000000000008089),
     (0x8000000080008000, 0x8000000000008003),
     (0x808B, 0x8000000000008002),
     (0x80000001, 0x8000000000000080),
     (0x8000000080008081, 0x800A),
     (0x8000000000008009, 0x800000008000000A),
     (0x8A, 0x8000000080008081),
     (0x88, 0x8000000000008080),
     (0x80008009, 0x80000001),
     (0x8000000A, 0x8000000080008008)]

/-- `RC[r]` (R80). -/
def roundConstant (r : Fin 24) : Lane :=
  if r.val < 12 then roundConstantRows[r.val % 12].1 else roundConstantRows[r.val % 12].2

/-- `IOTA` (R79): `A[0] <- A[0] ^ RC[r]`, the other lanes unchanged. -/
def iota (A : Lanes) (r : Fin 24) : Lanes := A.set 0 (A[0] ^^^ roundConstant r)

/-- `ROUND(A, r)` (R81): theta, rho, pi, chi, iota, in this order. -/
def keccakRound (A : Lanes) (r : Fin 24) : Lanes := iota (chi (pi (rho (theta A)))) r

/-- `PERMUTE(A)` (R82): the 24 rounds, `r = 0` first, `r = 23` last. Irreducible, so that a proof about blocks does
not run into the rounds: `unfold permute` opens it. -/
@[irreducible] def permute (A : Lanes) : Lanes := (List.finRange 24).foldl keccakRound A

end Sys2Proof.Machine
end

