-- ==== Sys2Proof/Machine/SpongeEngine.lean ====
section
/-! DEFINITION. The sponge controller's internal operations (41_sponge.md R92 to R98): InitInstance, ABSORB_BLOCK,
UpdateInstance, PadBlock, SQUEEZE, FinalizeInstance, and the function Hash. They serve the context `S`, the embedded
`HM.inner` and the transient instances alike. -/

namespace Sys2Proof.Machine

/-- `InitInstance(X, tag)` (R92). It writes every field, so nothing of the instance's earlier life survives. -/
def initInstance (m : Mode) : Sponge where
  A := Vector.replicate 25 0
  mode := m
  rate := modeRate m
  capacity := modeCapacity m
  digestLength := modeDigestLength m
  blockSize := modeBlockSize m
  pending := []
  pendingLen := 0
  phase := .absorbing

/-- The block XORed into the first bytes of the state, lane by lane, the lane form of R93 (20_memory.md R32): the lanes
beyond the block are not changed. -/
def xorBlock (A : Lanes) (blk : List Byte) : Lanes :=
  Vector.ofFn fun i => A[i] ^^^ le64 ((blk.drop (8 * i.val)).take 8)

/-- `ABSORB_BLOCK(X, blk)` on the lanes (R93): exactly one `PERMUTE` per block. -/
def absorbBlock (A : Lanes) (blk : List Byte) : Lanes := permute (xorBlock A blk)

/-- The loop of R94, `while len(buf) >= bs`: absorb the first block of the buffer and remove it. The first argument bounds the
number of turns; a buffer of `n` bytes needs no more than `n` (log entry 6). -/
def absorbWhile (bs : Nat) : Nat → Lanes → List Byte → Lanes × List Byte
  | 0, A, buf => (A, buf)
  | n + 1, A, buf =>
    if bs ≤ buf.length then absorbWhile bs n (absorbBlock A (buf.take bs)) (buf.drop bs) else (A, buf)

/-- `UpdateInstance(X, d)` (R94). -/
def updateInstance (X : Sponge) (d : List Byte) : Sponge :=
  let buf := X.pending ++ d
  let r := absorbWhile X.blockSize buf.length X.A buf
  { X with A := r.1, pending := r.2, pendingLen := r.2.length }

/-- `DOMAIN` (00_scope.md R4), the domain-separation byte. -/
def domainByte : Byte := 0x06

/-- `PADEND` (00_scope.md R4), the last byte of the padding. -/
def padEndByte : Byte := 0x80

/-- `PadBlock(p, bs)` (R95): the two markers share one byte, 0x86, exactly when one byte of room is left
(90_conflicts.md C1). -/
def padBlock (p : List Byte) (bs : Nat) : List Byte :=
  let q := bs - p.length
  if q = 1 then p ++ [domainByte ||| padEndByte]
  else p ++ [domainByte] ++ List.replicate (q - 2) 0 ++ [padEndByte]

/-- The loop of `SQUEEZE` (R96): the output and the lanes after it. The first argument bounds the number of turns. The
`PERMUTE` branch is kept as the source asks; it is dead for the four modes (93 U12). -/
def squeezeLoop (bs : Nat) : Nat → Lanes → Nat → List Byte × Lanes
  | 0, A, _ => ([], A)
  | k + 1, A, rem =>
    let n := min rem bs
    if rem - n = 0 then (stateBytes A n, A)
    else
      let r := squeezeLoop bs k (permute A) (rem - n)
      (stateBytes A n ++ r.1, r.2)

/-- `SQUEEZE(X)` (R96): the digest bytes and the lanes after it. -/
def squeeze (X : Sponge) : List Byte × Lanes := squeezeLoop X.blockSize (X.digestLength + 1) X.A X.digestLength

/-- `FinalizeInstance(X)` (R97): pad, absorb, squeeze, then the phase write (R106). -/
def finalizeInstance (X : Sponge) : List Byte × Sponge :=
  let X1 := { X with A := absorbBlock X.A (padBlock X.pending X.blockSize), pending := [], pendingLen := 0 }
  let r := squeeze X1
  (r.1, { X1 with A := r.2, phase := .squeezed })

/-- The function `Hash(tag, M)` on a transient instance (R98). -/
def hashOf (m : Mode) (M : List Byte) : List Byte :=
  (finalizeInstance (updateInstance (initInstance m) M)).1

/-- The body of `SPONGE_UPDATE` on an instance (R101), which `HMAC_UPDATE` and step 2 of `HMAC` forward to (42_hmac.md R123,
R125): the state check, then the input check, then the update. Absent data with `dlen = 0` does nothing. -/
def checkedUpdate (X : Sponge) (data : Option (List Byte)) (dlen : Nat) : Except Status Sponge := do
  requireAbsorbing X
  requireInput data dlen
  match data with
  | some d => pure (updateInstance X d)
  | none => pure X

end Sys2Proof.Machine
end

