-- ==== Sys2Proof/Machine/HmacEngine.lean ====
section
/-! DEFINITION. The HMAC engine's internal operations (42_hmac.md R120 to R124): KeyBlock, Pads, HmacInit, HmacUpdate,
HmacFinal. They serve the context `HM` and the transient instance of the one-shot `HMAC` alike. -/

namespace Sys2Proof.Machine

/-- `IPADC` (00_scope.md R4). -/
def ipadConst : Byte := 0x36

/-- `OPADC` (00_scope.md R4). -/
def opadConst : Byte := 0x5C

/-- `KeyBlock(tag, key)` (R120): a key longer than a block is replaced by its hash, "never truncated", and the result is
filled with zeros to a block. -/
def keyBlock (m : Mode) (key : List Byte) : List Byte :=
  let bs := modeBlockSize m
  let k := if key.length > bs then hashOf m key else key
  k ++ List.replicate (bs - k.length) 0

/-- One of the two pads of R121: every byte of the key block XOR the constant, then zeros to 144 bytes. -/
def padOf (c : Byte) (kb : List Byte) : PadBuf :=
  Vector.ofFn fun j => if h : j.val < kb.length then kb[j.val] ^^^ c else 0

/-- Bytes `[0, n)` of a pad buffer. -/
def padBytes (p : PadBuf) (n : Nat) : List Byte := p.toList.take n

/-- A pad buffer of 144 zero bytes. -/
def zeroPad : PadBuf := Vector.replicate 144 0

/-- `HmacInit(Y, tag, key)` (R122). It writes every field, and absorbs `ipad` into the fresh inner sponge. -/
def hmacInitInstance (m : Mode) (key : List Byte) : Hmac :=
  let kb := keyBlock m key
  let ipad := padOf ipadConst kb
  { mode := m
    blockSize := modeBlockSize m
    ipad := ipad
    opad := padOf opadConst kb
    inner := updateInstance (initInstance m) (padBytes ipad (modeBlockSize m)) }

/-- `HmacUpdate(Y, data, dlen)` (R123): only `inner` changes. -/
def hmacUpdateInstance (Y : Hmac) (data : Option (List Byte)) (dlen : Nat) : Except Status Hmac := do
  let X ← checkedUpdate Y.inner data dlen
  pure { Y with inner := X }

/-- `HmacFinal(Y)` (R124): the inner digest, the outer hash on a transient sponge, then both pads set to zero
(10_state.md R25). -/
def hmacFinalInstance (Y : Hmac) : List Byte × Hmac :=
  let r := finalizeInstance Y.inner
  (hashOf Y.mode (padBytes Y.opad Y.blockSize ++ r.1),
    { Y with inner := r.2, ipad := zeroPad, opad := zeroPad })

end Sys2Proof.Machine
end

