-- ==== Sys2Proof/Machine/Ops.lean ====
section
/-! DEFINITION. What surrounds the effect of a command: fetching its word, taking its payload, ending it with `OK` or with
another status (60_exceptions.md R148), waiting for the host (70_reset_and_hazards.md R174), and the reset (R170). -/

namespace Sys2Proof.Machine

/-- What a command that succeeds does to the contexts, and the bytes it emits on `DOUT`. -/
structure Effect where
  /-- The sponge context afterwards. -/
  S : Sponge
  /-- The HMAC context afterwards. -/
  HM : Hmac
  /-- The bytes for `DOUT`, in order. -/
  out : List Byte
  deriving DecidableEq, Repr

/-- The effect of a command that changes no context and emits nothing. -/
def noEffect (s : State) : Effect := { S := s.S, HM := s.HM, out := [] }

/-- The command word the CORE takes next: the oldest on `CMD` (20_memory.md R39). -/
def nextWord (s : State) : Option CmdWord := s.cmd.head?

/-- The CORE takes the command word and all of its announced payload, whatever becomes of the command (20_memory.md R31). -/
def acceptCommand (f : Fields) (s : State) : State :=
  { s with cmd := s.cmd.tail, din := s.din.drop (dinCount f), kin := s.kin.drop (kinCount f) }

/-- The one response of a command (30_encoding.md R58). -/
def respond (st : Status) (s : State) : State := { s with resp := s.resp ++ [st] }

/-- `raise st`, the block's exception (60_exceptions.md R148): the payload is consumed, the status is the response, and nothing
else changes: no context, no `DOUT` byte. There is no vector, no saved context and nothing to return from (R149). -/
def raise (f : Fields) (st : Status) (s : State) : State := respond st (acceptCommand f s)

/-- The end of a command with `OK`: the contexts are written, its bytes are appended to `DOUT` (`MemWrite`, 00_scope.md R8),
then the response is given (30_encoding.md R59). -/
def complete (f : Fields) (e : Effect) (s : State) : State :=
  respond .ok { acceptCommand f s with S := e.S, HM := e.HM, dout := s.dout ++ e.out }

/-- The CORE waits for the host, without limit (70_reset_and_hazards.md R174): nothing changes. -/
def waitForHost (s : State) : State := s

/-- A command from its checks and effect. It runs when its whole payload is there, and, if it emits bytes, the host takes them;
until then the CORE waits (R174). Log entries 4 and 5. -/
def runCommand (f : Fields) (s : State) (result : Except Status Effect) : Host.Outcome State Fault Refusal :=
  if framed f s then
    match result with
    | .error st => .next (raise f st s)
    | .ok e => if e.out.isEmpty || s.outReady then .next (complete f e s) else .next (waitForHost s)
  else .next (waitForHost s)

/-- An illegal word (30_encoding.md R56): its payload is taken as the word announces it, the status is `IllegalCommand`. -/
def illegalCommand (w : CmdWord) (s : State) : Host.Outcome State Fault Refusal :=
  runCommand (fieldsOf w) s (.error .illegalCommand)

/-- The reset event (70_reset_and_hazards.md R170): whatever the CORE was waiting for is abandoned without a response, and the
contexts are as 10_state.md R24 says, with fresh unspecified values. -/
def takeReset (s : State) : State := State.afterReset (s.resets + 1) s.outReady

/-- The payload a word announces, as zero bytes before what the channels hold. -/
def withZeroPayload (f : Fields) (s : State) : State :=
  { s with din := List.replicate (dinCount f) 0 ++ s.din, kin := List.replicate (kinCount f) 0 ++ s.kin }

/-- `w` offered on `CMD` before all other words, its payload with it, and no reset asserted. -/
def offerWord (w : CmdWord) (s : State) : State :=
  { withZeroPayload (fieldsOf w) s with cmd := w :: s.cmd, rst := false }

end Sys2Proof.Machine
end

