-- ==== Sys2Proof/Machine/HmacCommands.lean ====
section
/-! DEFINITION. The commands `HMAC_INIT`, `HMAC_UPDATE`, `HMAC_FINAL`, `HMAC` (42_hmac.md R122 to R125). Each is its checks in
the order of 60_exceptions.md R147 and then its effect. -/

namespace Sys2Proof.Machine

/-- `HMAC_INIT` (R122), allowed in every phase of `HM`. -/
def hmacInitEffect (f : Fields) (s : State) : Except Status Effect := do
  let key ← requireBuffer (keyOperand f s)
  let m ← requireMode f.mode
  pure { noEffect s with HM := hmacInitInstance m key }

/-- `HMAC_UPDATE` (R123). -/
def hmacUpdateEffect (f : Fields) (s : State) : Except Status Effect := do
  let Y ← hmacUpdateInstance s.HM (dataOperand f s) f.dlen
  pure { noEffect s with HM := Y }

/-- `HMAC_FINAL` (R124): an absent output buffer is `InvalidArgument` here. -/
def hmacFinalEffect (f : Fields) (s : State) : Except Status Effect := do
  requireAbsorbing s.HM.inner
  require f.obp .invalidArgument
  pure { noEffect s with HM := (hmacFinalInstance s.HM).2, out := (hmacFinalInstance s.HM).1 }

/-- `HMAC` (R125): init, update, finalize on a transient instance; the first step's error ends the command
(60_exceptions.md R150). -/
def hmacEffect (f : Fields) (s : State) : Except Status Effect := do
  let key ← requireBuffer (keyOperand f s)
  let m ← requireMode f.mode
  let Y ← hmacUpdateInstance (hmacInitInstance m key) (dataOperand f s) f.dlen
  require f.obp .invalidArgument
  pure { noEffect s with out := (hmacFinalInstance Y).1 }

/-- The meaning of `HMAC_INIT` (R122). -/
def execHmacInit (f : Fields) (s : State) : Host.Outcome State Fault Refusal := runCommand f s (hmacInitEffect f s)

/-- The meaning of `HMAC_UPDATE` (R123). -/
def execHmacUpdate (f : Fields) (s : State) : Host.Outcome State Fault Refusal := runCommand f s (hmacUpdateEffect f s)

/-- The meaning of `HMAC_FINAL` (R124). -/
def execHmacFinal (f : Fields) (s : State) : Host.Outcome State Fault Refusal := runCommand f s (hmacFinalEffect f s)

/-- The meaning of `HMAC` (R125). -/
def execHmac (f : Fields) (s : State) : Host.Outcome State Fault Refusal := runCommand f s (hmacEffect f s)

end Sys2Proof.Machine
end

