-- ==== Sys2Proof/Machine/SpongeCommands.lean ====
section
/-! DEFINITION. The commands `SPONGE_INIT`, `SPONGE_UPDATE`, `SPONGE_FINAL`, `HASH` (41_sponge.md R100 to R103). Each is its
checks in the order of 60_exceptions.md R147 and then its effect. -/

namespace Sys2Proof.Machine

/-- `SPONGE_INIT` (R100), allowed in every phase of `S`. -/
def spongeInitEffect (f : Fields) (s : State) : Except Status Effect := do
  let m ← requireMode f.mode
  pure { noEffect s with S := initInstance m }

/-- `SPONGE_UPDATE` (R101). -/
def spongeUpdateEffect (f : Fields) (s : State) : Except Status Effect := do
  let X ← checkedUpdate s.S (dataOperand f s) f.dlen
  pure { noEffect s with S := X }

/-- `SPONGE_FINAL` (R102). -/
def spongeFinalEffect (f : Fields) (s : State) : Except Status Effect := do
  requireAbsorbing s.S
  require f.obp .nullOutput
  pure { noEffect s with S := (finalizeInstance s.S).2, out := (finalizeInstance s.S).1 }

/-- `HASH` (R103): the wrapper's own check of both buffers, then the mode; on a transient instance. -/
def hashEffect (f : Fields) (s : State) : Except Status Effect := do
  let d ← requireBuffer (dataOperand f s)
  require f.obp .invalidArgument
  let m ← requireMode f.mode
  pure { noEffect s with out := hashOf m d }

/-- The meaning of `SPONGE_INIT` (R100). -/
def execSpongeInit (f : Fields) (s : State) : Host.Outcome State Fault Refusal := runCommand f s (spongeInitEffect f s)

/-- The meaning of `SPONGE_UPDATE` (R101). -/
def execSpongeUpdate (f : Fields) (s : State) : Host.Outcome State Fault Refusal := runCommand f s (spongeUpdateEffect f s)

/-- The meaning of `SPONGE_FINAL` (R102). -/
def execSpongeFinal (f : Fields) (s : State) : Host.Outcome State Fault Refusal := runCommand f s (spongeFinalEffect f s)

/-- The meaning of `HASH` (R103). -/
def execHash (f : Fields) (s : State) : Host.Outcome State Fault Refusal := runCommand f s (hashEffect f s)

end Sys2Proof.Machine
end

