-- ==== Sys2Proof/Machine/Dispatch.lean ====
section
/-! DEFINITION. The dispatch of a command to its meaning: one arm per row of the opcode table (30_encoding.md R52). -/

namespace Sys2Proof.Machine

def exec (i : Instr) (s : State) : Host.Outcome State Fault Refusal :=
  match i with
  | .spongeInit f => Sys2Proof.Machine.execSpongeInit f s
  | .spongeUpdate f => Sys2Proof.Machine.execSpongeUpdate f s
  | .spongeFinal f => Sys2Proof.Machine.execSpongeFinal f s
  | .hash f => Sys2Proof.Machine.execHash f s
  | .hmacInit f => Sys2Proof.Machine.execHmacInit f s
  | .hmacUpdate f => Sys2Proof.Machine.execHmacUpdate f s
  | .hmacFinal f => Sys2Proof.Machine.execHmacFinal f s
  | .hmac f => Sys2Proof.Machine.execHmac f s

end Sys2Proof.Machine
end

