-- ==== Sys2Proof/Machine/Step.lean ====
section
/-! DEFINITION. One step of the CORE: a reset if it is asserted, else one whole command (20_memory.md R37, R39: a command is
atomic), or waiting where there is none. -/

namespace Sys2Proof.Machine

/-- One step. With no word on `CMD` the CORE waits: "it starts nothing by itself" (70_reset_and_hazards.md R170). -/
def step (s : State) : Host.Outcome State Fault Refusal :=
  if s.rst then .next (takeReset s)
  else
    match nextWord s with
    | none => .next (waitForHost s)
    | some w =>
      match decode w with
      | .ok i => exec i s
      | .error _ => illegalCommand w s

/-- `s` with the command word of an opcode-table row, and a payload of zeros of the lengths it announces, offered so that the
very next step runs it. Log entry 7. -/
def State.withFetchWord (s : State) (nbits w : Nat) : State := offerWord (tableWord nbits w) s

end Sys2Proof.Machine
end

