-- ==== Sys2Proof/Machine/Reference.lean ====
section
/-! DEFINITION. The spec's second presentations of what the model computes: the generators of the tables (40_permutation.md R75,
R80), the tables of pi (R77), the flattened rho and pi loop (R83), the byte forms of absorbing and of updating (41_sponge.md R93, R99), the unfolded
hash (R98), the function Hmac (42_hmac.md R126) and the table of checks (60_exceptions.md R147). The machine uses none of them;
claims compare it with them. -/

namespace Sys2Proof.Machine

/-- One turn of the generator of the `RHO` table (R75): write the offset of step `t` at `(x, y)`, then walk to
`(y, (2x + 3y) mod 5)`. -/
def rhoWalkStep (st : (Nat × Nat) × Vector Nat 25) (t : Nat) : (Nat × Nat) × Vector Nat 25 :=
  let x := st.1.1
  let y := st.1.2
  ((y, (2 * x + 3 * y) % 5), st.2.setIfInBounds (x + 5 * y) ((t + 1) * (t + 2) / 2 % 64))

/-- The `RHO` table by its generator (R75): `RHO[0,0] = 0`, then 24 steps from `(1, 0)`. -/
def rhoGenerated : Vector Nat 25 :=
  ((List.range 24).foldl rhoWalkStep ((1, 0), Vector.replicate 25 0)).2

/-- One turn of the shift register of R80, bit `i` of the number being `R[i]`: a 0 is prepended, `R[8]` is XORed into `R[0]`,
`R[4]`, `R[5]`, `R[6]` and dropped. -/
def lfsrStep (R : Nat) : Nat := if 2 * R < 256 then 2 * R else (2 * R) ^^^ 0x171

/-- The register after `n` turns. -/
def lfsrRun : Nat → Nat → Nat
  | 0, R => R
  | n + 1, R => lfsrRun n (lfsrStep R)

/-- `rc(t)` of R80. -/
def rcBit (t : Nat) : Bool := lfsrRun (t % 255) 1 % 2 == 1

/-- `RC[r]` by its generator (R80): bit `2^j - 1` is `rc(j + 7r)` for `j = 0..6`, every other bit is 0. -/
def rcGenerated (r : Nat) : Lane :=
  (List.range 7).foldl (fun acc j => if rcBit (j + 7 * r) then acc ||| (1#64 <<< (2 ^ j - 1)) else acc) 0

/-- `PI_DST` (R77): the flat index to which lane `i` moves, row `y` of five lanes by row. -/
def piDestRows : Vector (Vector (Fin 25) 5) 5 :=
  #v[#v[0, 10, 20, 5, 15],
     #v[16, 1, 11, 21, 6],
     #v[7, 17, 2, 12, 22],
     #v[23, 8, 18, 3, 13],
     #v[14, 24, 9, 19, 4]]

/-- `PI_DST[i]` (R77). -/
def piDest (i : Fin 25) : Fin 25 := piDestRows[i.val / 5][i.val % 5]

/-- `PI_SRC` (R77): the flat index whose lane arrives at `j`, row of five lanes by row. -/
def piSourceRows : Vector (Vector (Fin 25) 5) 5 :=
  #v[#v[0, 6, 12, 18, 24],
     #v[3, 9, 10, 16, 22],
     #v[1, 7, 13, 19, 20],
     #v[4, 5, 11, 17, 23],
     #v[2, 8, 14, 15, 21]]

/-- `PI_SRC[j]` (R77). -/
def piSource (j : Fin 25) : Fin 25 := piSourceRows[j.val / 5][j.val % 5]

/-- The walk of R83 along the 24-cycle of pi: turn by turn the pair of `piln[i]`, the lane written, and `rotc[i]`, the amount. -/
def rhoPiWalk : List (Fin 25 × Nat) :=
  [(10, 1), (7, 3), (11, 6), (17, 10), (18, 15), (3, 21), (5, 28), (16, 36), (8, 45), (21, 55), (24, 2), (4, 14),
   (15, 27), (23, 41), (19, 56), (13, 8), (12, 25), (2, 43), (20, 62), (14, 18), (22, 39), (9, 61), (6, 20), (1, 44)]

/-- One turn of the loop of R83 on `(t, A)`: `tmp = A[j]; A[j] <- ROTL64(t, n); t = tmp`. -/
def rhoPiTurn (st : Lane × Lanes) (turn : Fin 25 × Nat) : Lane × Lanes :=
  (st.2[turn.1], st.2.set turn.1 (rotl64 st.1 turn.2))

/-- The flattened rho and pi loop of R83, from `t = A[1]`. -/
def rhoPiLoop (A : Lanes) : Lanes := (rhoPiWalk.foldl rhoPiTurn (A[1], A)).2

/-- `A[k div 8] <- A[k div 8] ^ (zext_64(v) << (8*(k mod 8)))` (20_memory.md R32). -/
def xorByte (A : Lanes) (k : Nat) (v : Byte) : Lanes :=
  A.setIfInBounds (k / 8) ((A[k / 8]?.getD 0) ^^^ (v.setWidth 64 <<< (8 * (k % 8))))

/-- The byte form of the XOR of R93, byte after byte. -/
def xorBlockBytes (A : Lanes) (blk : List Byte) : Lanes :=
  (List.range blk.length).foldl (fun B k => xorByte B k (blk.getD k 0)) A

/-- The first `n` blocks of `bs` bytes of a byte sequence, in order. -/
def blocksOf (bs n : Nat) (b : List Byte) : List (List Byte) :=
  (List.range n).map fun k => (b.drop (k * bs)).take bs

/-- The blocks absorbed in order. -/
def absorbBlocks (A : Lanes) (blks : List (List Byte)) : Lanes := blks.foldl absorbBlock A

/-- One turn of the byte-serial update of R99. -/
def updateByte (X : Sponge) (v : Byte) : Sponge :=
  if X.pendingLen + 1 = X.blockSize then
    { X with A := absorbBlock X.A (X.pending ++ [v]), pending := [], pendingLen := 0 }
  else { X with pending := X.pending ++ [v], pendingLen := X.pendingLen + 1 }

/-- The byte-serial form of UpdateInstance (R99). -/
def updateBytewise (X : Sponge) (d : List Byte) : Sponge := d.foldl updateByte X

/-- The hash unfolded (R98): `n = len(M) div bs + 1` blocks, the last one padded, absorbed into the zero state; the digest is the
first state bytes. -/
def hashUnfolded (m : Mode) (M : List Byte) : List Byte :=
  let bs := modeBlockSize m
  let n := M.length / bs + 1
  let blks := blocksOf bs (n - 1) M ++ [padBlock (M.drop (bs * (n - 1))) bs]
  stateBytes (absorbBlocks (Vector.replicate 25 0) blks) (modeDigestLength m)

/-- The function `Hmac(tag, key, M)` (42_hmac.md R126). -/
def hmacOf (m : Mode) (key M : List Byte) : List Byte :=
  let kb := keyBlock m key
  hashOf m (kb.map (· ^^^ 0x5C) ++ hashOf m (kb.map (· ^^^ 0x36) ++ M))

/-- The first check that fails gives the status (60_exceptions.md R147). -/
def firstFailing : List (Bool × Status) → Status
  | [] => .ok
  | (fails, st) :: rest => if fails then st else firstFailing rest

/-- The row of R147 of each command, left to right, each check as "it fails" and its status. -/
def checksOf (i : Instr) (s : State) : List (Bool × Status) :=
  match i with
  | .spongeInit f => [(decide (3 < f.mode), .invalidMode)]
  | .spongeUpdate f => [(s.S.phase != .absorbing, .invalidState), (!f.ibp && decide (0 < f.dlen), .nullInput)]
  | .spongeFinal f => [(s.S.phase != .absorbing, .invalidState), (!f.obp, .nullOutput)]
  | .hash f => [(!f.ibp || !f.obp, .invalidArgument), (decide (3 < f.mode), .invalidMode)]
  | .hmacInit f => [(!f.kbp, .invalidArgument), (decide (3 < f.mode), .invalidMode)]
  | .hmacUpdate f => [(s.HM.inner.phase != .absorbing, .invalidState), (!f.ibp && decide (0 < f.dlen), .nullInput)]
  | .hmacFinal f => [(s.HM.inner.phase != .absorbing, .invalidState), (!f.obp, .invalidArgument)]
  | .hmac f => [(!f.kbp, .invalidArgument), (decide (3 < f.mode), .invalidMode),
      (!f.ibp && decide (0 < f.dlen), .nullInput), (!f.obp, .invalidArgument)]

/-- The status R147 gives a command. -/
def statusOf (i : Instr) (s : State) : Status := firstFailing (checksOf i s)

/-- The status R147 gives a command word: the check for an illegal word comes before every other. -/
def statusOfWord (w : CmdWord) (s : State) : Status :=
  match decode w with
  | .ok i => statusOf i s
  | .error _ => .illegalCommand

/-- How many bytes a command emits when it ends `OK` (30_encoding.md R59, 20_memory.md R31). -/
def outputLength (i : Instr) (s : State) : Nat :=
  match i with
  | .spongeInit _ => 0
  | .spongeUpdate _ => 0
  | .spongeFinal _ => s.S.digestLength
  | .hash f => ((modeOfTag f.mode).map modeDigestLength).getD 0
  | .hmacInit _ => 0
  | .hmacUpdate _ => 0
  | .hmacFinal _ => s.HM.inner.digestLength
  | .hmac f => ((modeOfTag f.mode).map modeDigestLength).getD 0

end Sys2Proof.Machine
end

