-- ==== Sys2Proof/Safety.lean ====
section
/-! DEFINITION. The terms in which claims speak of the machine: the invariant of the contexts (10_state.md R13 to R19), when a
command has all it waits for (70_reset_and_hazards.md R174), and the state a command leaves. -/

namespace Sys2Proof.Machine

/-- The mode-derived fields are the row of the stored mode (10_state.md R14). -/
def modeFieldsAgree (X : Sponge) : Prop :=
  X.rate = modeRate X.mode ∧ X.capacity = modeCapacity X.mode ∧
    X.digestLength = modeDigestLength X.mode ∧ X.blockSize = modeBlockSize X.mode

/-- What holds of a sponge context between commands: `pending` has `pending_len` bytes (R13); once initialised, the mode-derived
fields are the mode's (R14) and `pending_len < block_size` (R15); after FINAL `pending` is empty (41_sponge.md R97). -/
structure SpongeInv (X : Sponge) : Prop where
  pendingLen_eq : X.pendingLen = X.pending.length
  fields : X.phase ≠ .uninit → modeFieldsAgree X
  pending_lt : X.phase ≠ .uninit → X.pendingLen < X.blockSize
  squeezed_empty : X.phase = .squeezed → X.pending = []

/-- What holds of the HMAC context between commands (R18, R19): its inner sponge is in order; once initialised, mode and block
size are the inner sponge's and the pads are zero from the block size on; while absorbing, the pads are the two pads of one key
block (42_hmac.md R121); after FINAL both pads are zero (R25). -/
structure HmacInv (Y : Hmac) : Prop where
  inner : SpongeInv Y.inner
  mode_eq : Y.inner.phase ≠ .uninit → Y.mode = Y.inner.mode
  blockSize_eq : Y.inner.phase ≠ .uninit → Y.blockSize = Y.inner.blockSize
  tails_zero : Y.inner.phase ≠ .uninit →
    ∀ j : Fin 144, Y.blockSize ≤ j.val → Y.ipad[j] = 0 ∧ Y.opad[j] = 0
  pads_of_key : Y.inner.phase = .absorbing →
    ∀ j : Fin 144, j.val < Y.blockSize → Y.ipad[j] ^^^ Y.opad[j] = 0x6A
  pads_zeroed : Y.inner.phase = .squeezed →
    ∀ j : Fin 144, Y.ipad[j] = 0 ∧ Y.opad[j] = 0

/-- What holds of the CORE between commands. -/
structure Inv (s : State) : Prop where
  S : SpongeInv s.S
  HM : HmacInv s.HM

/-- Each field of a sponge context fits the width 10_state.md R13 gives it. -/
def spongeFits (X : Sponge) : Prop :=
  X.rate < 2 ^ 11 ∧ X.capacity < 2 ^ 11 ∧ X.digestLength < 2 ^ 7 ∧ X.blockSize < 2 ^ 8 ∧ X.pendingLen < 2 ^ 8

/-- Each field of the two contexts fits the width 10_state.md R13 and R18 give it. -/
def fieldsFit (s : State) : Prop :=
  spongeFits s.S ∧ spongeFits s.HM.inner ∧ s.HM.blockSize < 2 ^ 8

/-- The whole payload a command announces is on the channels: the host has done its duty of 70_reset_and_hazards.md R174. -/
def PayloadThere (f : Fields) (s : State) : Prop :=
  (f.ibp = true → f.dlen ≤ s.din.length) ∧ (f.kbp = true → f.klen ≤ s.kin.length)

/-- The state after a command with fields `f` that ends with status `st`, leaves the contexts `X` and `Y` and emits `out`: the
word is taken from `CMD`, its payload from `DIN` and `KIN` (20_memory.md R31), and nothing else changes. -/
def afterCommand (f : Fields) (s : State) (X : Sponge) (Y : Hmac) (out : List Byte) (st : Status) : State where
  S := X
  HM := Y
  cmd := s.cmd.tail
  din := if f.ibp then s.din.drop f.dlen else s.din
  kin := if f.kbp then s.kin.drop f.klen else s.kin
  dout := s.dout ++ out
  resp := s.resp ++ [st]
  outReady := s.outReady
  rst := s.rst
  resets := s.resets

/-- The state after a command that fails with `st`: every context and `DOUT` as before (60_exceptions.md R148). -/
def afterFailure (f : Fields) (s : State) (st : Status) : State := afterCommand f s s.S s.HM [] st

/-- The instance a successful INIT leaves, from the values of a mode-table row (41_sponge.md R92). -/
def freshSponge (m : Mode) (rate capacity blockSize digestLength : Nat) : Sponge where
  A := Vector.replicate 25 0
  mode := m
  rate := rate
  capacity := capacity
  digestLength := digestLength
  blockSize := blockSize
  pending := []
  pendingLen := 0
  phase := .absorbing

/-- The operand fields of a command that presents `d` as its message and nothing else. -/
def dataFields (d : List Byte) : Fields where
  mode := 0
  ibp := true
  obp := false
  kbp := false
  dlen := d.length
  klen := 0

/-- Two commands are the same command with the same used fields, the column "uses fields" of 30_encoding.md R52; the ignored fields
(R57) may differ, and so may `KLEN` where the key is absent (93 U20). -/
def usedFieldsAgree : Instr → Instr → Prop
  | .spongeInit f, .spongeInit g => f.mode = g.mode
  | .spongeUpdate f, .spongeUpdate g => f.ibp = g.ibp ∧ f.dlen = g.dlen
  | .spongeFinal f, .spongeFinal g => f.obp = g.obp
  | .hash f, .hash g => f.mode = g.mode ∧ f.ibp = g.ibp ∧ f.dlen = g.dlen ∧ f.obp = g.obp
  | .hmacInit f, .hmacInit g => f.mode = g.mode ∧ f.kbp = g.kbp ∧ (f.kbp = true → f.klen = g.klen)
  | .hmacUpdate f, .hmacUpdate g => f.ibp = g.ibp ∧ f.dlen = g.dlen
  | .hmacFinal f, .hmacFinal g => f.obp = g.obp
  | .hmac f, .hmac g =>
    f.mode = g.mode ∧ f.ibp = g.ibp ∧ f.dlen = g.dlen ∧ f.kbp = g.kbp ∧ (f.kbp = true → f.klen = g.klen) ∧
      f.obp = g.obp
  | _, _ => False

/-- Two states that differ at most in what 10_state.md R24 leaves unspecified: the channels and inputs agree, and each context is
the same in both or `UNINIT` in both. -/
structure SameButUnspecified (s1 s2 : State) : Prop where
  S : s1.S = s2.S ∨ (s1.S.phase = .uninit ∧ s2.S.phase = .uninit)
  HM : s1.HM = s2.HM ∨ (s1.HM.inner.phase = .uninit ∧ s2.HM.inner.phase = .uninit)
  cmd : s1.cmd = s2.cmd
  din : s1.din = s2.din
  kin : s1.kin = s2.kin
  dout : s1.dout = s2.dout
  resp : s1.resp = s2.resp
  outReady : s1.outReady = s2.outReady
  rst : s1.rst = s2.rst

end Sys2Proof.Machine
end

