-- ==== Sys2Proof/Certificates/Slice0/Obligations.lean ====
section
/-! DEFINITION. The statements for the provers, from the numbered rules of spec/. -/

open Sys2Proof Sys2Proof.Machine

/-! ## Encoding and decoding -/

/-- 30_encoding.md sections 1 and 2: encoding loses no bit of a well-formed command, used or ignored. -/
def Obligations.DecodeOfEncode : Prop :=
  ∀ i : Instr, i.wellFormed = true → decode (encode i) = .ok i

/-- 30_encoding.md sections 1 and 2: each legal word is the word of the one command it decodes to, and that command is well
formed. -/
def Obligations.EncodeOfDecode : Prop :=
  ∀ (w : CmdWord) (i : Instr), decode w = .ok i → i.wellFormed = true ∧ encode i = w

/-- 30_encoding.md R62 and R56: a word is illegal exactly when `OP` is 0 or 9 to 15 or `RSV` is not 0; any other word is the
command of its `OP` with the word's own fields. -/
def Obligations.EveryWordHasOneVerdict : Prop :=
  ∀ w : CmdWord,
    ((1 ≤ (w.extractLsb 3 0).toNat ∧ (w.extractLsb 3 0).toNat ≤ 8 ∧ w.extractLsb 15 11 = 0) →
      ∃ i, decode w = .ok i ∧ i.opcode = (w.extractLsb 3 0).toNat ∧ i.fields = fieldsOf w) ∧
    (((w.extractLsb 3 0).toNat = 0 ∨ 9 ≤ (w.extractLsb 3 0).toNat ∨ w.extractLsb 15 11 ≠ 0) →
      ∃ e, decode w = .error e)

/-- 30_encoding.md R50: each operand field stands at its bits. -/
def Obligations.FieldsStandAtTheirBits : Prop :=
  ∀ w : CmdWord,
    (fieldsOf w).mode = (w.extractLsb 7 4).toNat ∧ (fieldsOf w).ibp = w.getLsbD 8 ∧
    (fieldsOf w).obp = w.getLsbD 9 ∧ (fieldsOf w).kbp = w.getLsbD 10 ∧
    (fieldsOf w).dlen = (w.extractLsb 39 16).toNat ∧ (fieldsOf w).klen = (w.extractLsb 63 40).toNat

/-- 30_encoding.md R52: the match and mask of each of the eight rows of the opcode map. -/
def Obligations.OpcodeMapRows : Prop :=
  ∀ w : CmdWord,
    (w &&& 0xF80F = 0x1 ↔ decode w = .ok (.spongeInit (fieldsOf w))) ∧
    (w &&& 0xF80F = 0x2 ↔ decode w = .ok (.spongeUpdate (fieldsOf w))) ∧
    (w &&& 0xF80F = 0x3 ↔ decode w = .ok (.spongeFinal (fieldsOf w))) ∧
    (w &&& 0xF80F = 0x4 ↔ decode w = .ok (.hash (fieldsOf w))) ∧
    (w &&& 0xF80F = 0x5 ↔ decode w = .ok (.hmacInit (fieldsOf w))) ∧
    (w &&& 0xF80F = 0x6 ↔ decode w = .ok (.hmacUpdate (fieldsOf w))) ∧
    (w &&& 0xF80F = 0x7 ↔ decode w = .ok (.hmacFinal (fieldsOf w))) ∧
    (w &&& 0xF80F = 0x8 ↔ decode w = .ok (.hmac (fieldsOf w)))

/-- 95_test_vectors.md section 3.6: words written out from the encoding decode to the commands they stand for. -/
def Obligations.SpecWordsDecode : Prop :=
  decode 0x0000070000050711 =
    .ok (.spongeInit { mode := 1, ibp := true, obp := true, kbp := true, dlen := 5, klen := 7 }) ∧
  decode 0x0000000000030102 =
    .ok (.spongeUpdate { mode := 0, ibp := true, obp := false, kbp := false, dlen := 3, klen := 0 }) ∧
  decode 0x0000000000470334 =
    .ok (.hash { mode := 3, ibp := true, obp := true, kbp := false, dlen := 71, klen := 0 }) ∧
  decode 0x00008900002B0718 =
    .ok (.hmac { mode := 1, ibp := true, obp := true, kbp := true, dlen := 43, klen := 137 }) ∧
  decode 0x0000000000000811 = .error (.reservedBits 1) ∧
  decode 0x000000000004010F = .error (.reservedOpcode 15)

/-! ## The step -/

/-- A step runs the decoded command: when no reset is asserted and the oldest word on `CMD` decodes to `i`, the step is `exec` of
`i` at that state; the taking of the word and its payload is part of `exec` (20_memory.md R31, R39). -/
def Obligations.StepRunsTheDecodedCommand : Prop :=
  ∀ (s : State) (w : CmdWord) (rest : List CmdWord) (i : Instr),
    s.rst = false → s.cmd = w :: rest → decode w = .ok i → step s = exec i s

/-- 30_encoding.md R56: an illegal word takes its payload as announced, changes no context, emits nothing and answers
`IllegalCommand`, code 6. -/
def Obligations.IllegalWordsAreAnswered : Prop :=
  ∀ (s : State) (w : CmdWord) (rest : List CmdWord),
    s.rst = false → s.cmd = w :: rest →
    ((w.extractLsb 3 0).toNat = 0 ∨ 9 ≤ (w.extractLsb 3 0).toNat ∨ w.extractLsb 15 11 ≠ 0) →
    PayloadThere (fieldsOf w) s →
    step s = .next (afterFailure (fieldsOf w) s .illegalCommand) ∧ statusCode .illegalCommand = 6

/-- 70_reset_and_hazards.md R170: after reset the CORE waits for a command word and starts nothing by itself. -/
def Obligations.NoWordNoChange : Prop :=
  ∀ s : State, s.rst = false → s.cmd = [] → step s = .next s

/-- 10_state.md R24 and 70_reset_and_hazards.md R170: an asserted reset, at any time, leaves both phases `UNINIT` and no word,
payload byte, output byte or response pending; the other fields of the contexts are free values. THE MODEL'S CHOICE in it: the
form of the free values, one set for each number of resets (log entry 1), that the channels are emptied (log entry 3), that
`outReady` is kept (log entry 4), and that the step clears `rst` and counts the reset in `resets` (log entry 8). -/
def Obligations.ResetEffect : Prop :=
  ∀ s : State, s.rst = true → ∃ t, step s = .next t ∧
    t.S.phase = .uninit ∧ t.HM.inner.phase = .uninit ∧
    t.cmd = [] ∧ t.din = [] ∧ t.kin = [] ∧ t.dout = [] ∧ t.resp = [] ∧
    t.rst = false ∧ t.outReady = s.outReady ∧ t.resets = s.resets + 1 ∧
    t = State.afterReset (s.resets + 1) s.outReady

/-- 70_reset_and_hazards.md R172: in every state, whatever is on the channels, a step answers a next state. -/
def Obligations.EveryStepAnswersNext : Prop :=
  ∀ s : State, ∃ t, step s = .next t

/-- 70_reset_and_hazards.md R174: a command whose payload is not all there does not complete and gives no response. THE MODEL'S
CHOICE in it: that meanwhile no payload byte is taken and nothing else changes either (log entry 5). -/
def Obligations.WaitsForItsPayload : Prop :=
  ∀ (i : Instr) (s : State),
    ((i.fields.ibp = true ∧ s.din.length < i.fields.dlen) ∨
      (i.fields.kbp = true ∧ s.kin.length < i.fields.klen)) →
    exec i s = .next s

/-- 70_reset_and_hazards.md R174: while the host does not take output, a command that would end `OK` with output bytes does not
complete. THE MODEL'S CHOICE in it: that the host's taking is one input bit and no byte comes out while it is clear (log entry 4),
and that meanwhile no payload byte is taken and nothing else changes either (log entry 5). -/
def Obligations.WaitsForTheHostToTakeOutput : Prop :=
  ∀ (i : Instr) (s : State), Inv s → s.outReady = false →
    statusOf i s = .ok → 0 < outputLength i s → exec i s = .next s

/-- 30_encoding.md R58 and 20_memory.md R39: a step without reset waits, or takes exactly the oldest word with the payload that
word announces and gives exactly one response, one of the seven statuses with the codes of the table. THE MODEL'S CHOICE in it:
that a command is one step, and that a step that waits changes nothing (log entry 5). -/
def Obligations.StepTakesOneCommand : Prop :=
  (∀ s t : State, s.rst = false → step s = .next t →
    t = s ∨ ∃ w rest X Y out st, s.cmd = w :: rest ∧ PayloadThere (fieldsOf w) s ∧
      t = afterCommand (fieldsOf w) s X Y out st ∧ t.cmd = rest) ∧
  (statusCode .ok = 0 ∧ statusCode .invalidMode = 1 ∧ statusCode .invalidArgument = 2 ∧ statusCode .nullInput = 3 ∧
    statusCode .nullOutput = 4 ∧ statusCode .invalidState = 5 ∧ statusCode .illegalCommand = 6 ∧
    ∀ st, (statusCode st).toNat < 7)

/-! ## The permutation engine -/

/-- 40_permutation.md R70: the laws of the lane rotation. -/
def Obligations.RotationLaws : Prop :=
  ∀ (a b : Lane) (m n : Nat), m < 64 → n < 64 →
    rotl64 a 0 = a ∧ rotl64 (a ^^^ b) n = rotl64 a n ^^^ rotl64 b n ∧
    rotl64 (rotl64 a m) n = rotl64 a ((m + n) % 64) ∧
    ∀ i, i < 64 → (rotl64 a n).getLsbD ((i + n) % 64) = a.getLsbD i

/-- 40_permutation.md R73 and R84: theta bit by bit. Bit `z` of lane `(x, y)` is XORed with the parity of the column to the left
at `z` and of the column to the right at `z - 1`, columns and bits wrapping. -/
def Obligations.ThetaBitwise : Prop :=
  ∀ (A : Lanes) (x y z : Nat), x < 5 → y < 5 → z < 64 →
    (laneAt (theta A) x y).getLsbD z =
      ((laneAt A x y).getLsbD z ^^
        ((laneAt A (x + 4) 0).getLsbD z ^^ (laneAt A (x + 4) 1).getLsbD z ^^ (laneAt A (x + 4) 2).getLsbD z ^^
          (laneAt A (x + 4) 3).getLsbD z ^^ (laneAt A (x + 4) 4).getLsbD z) ^^
        ((laneAt A (x + 1) 0).getLsbD ((z + 63) % 64) ^^ (laneAt A (x + 1) 1).getLsbD ((z + 63) % 64) ^^
          (laneAt A (x + 1) 2).getLsbD ((z + 63) % 64) ^^ (laneAt A (x + 1) 3).getLsbD ((z + 63) % 64) ^^
          (laneAt A (x + 1) 4).getLsbD ((z + 63) % 64)))

/-- 40_permutation.md R74 and R75: rho rotates each lane left by the offset its generator gives, lane 0 by none; the offsets are
pairwise distinct and below 63. -/
def Obligations.RhoRotatesByTheGeneratedOffsets : Prop :=
  (∀ (A : Lanes) (i : Fin 25) (z : Nat), z < 64 →
    (rho A)[i].getLsbD ((z + rhoGenerated[i]) % 64) = A[i].getLsbD z) ∧
  (∀ A : Lanes, (rho A)[0] = A[0]) ∧
  (∀ i : Fin 25, rhoGenerated[i] < 63) ∧ ∀ i j : Fin 25, rhoGenerated[i] = rhoGenerated[j] → i = j

/-- 40_permutation.md R76 and R77: the tables of pi are their formulas, each inverts the other, and pi moves lane `i` to
`PI_DST[i]`. -/
def Obligations.PiMovesLanes : Prop :=
  (∀ x y : Fin 5, (piDest ⟨x.val + 5 * y.val, by omega⟩).val = y.val + 5 * ((2 * x.val + 3 * y.val) % 5)) ∧
  (∀ x y : Fin 5, (piSource ⟨x.val + 5 * y.val, by omega⟩).val = (x.val + 3 * y.val) % 5 + 5 * x.val) ∧
  (∀ i : Fin 25, piSource (piDest i) = i ∧ piDest (piSource i) = i) ∧
  (∀ (A : Lanes) (i : Fin 25), (pi A)[piDest i] = A[i]) ∧
  (∀ (A : Lanes) (j : Fin 25), (pi A)[j] = A[piSource j])

/-- 40_permutation.md R78 and R84: chi bit by bit. -/
def Obligations.ChiBitwise : Prop :=
  ∀ (B : Lanes) (x y z : Nat), x < 5 → y < 5 → z < 64 →
    (laneAt (chi B) x y).getLsbD z =
      ((laneAt B x y).getLsbD z ^^
        (!(laneAt B ((x + 1) % 5) y).getLsbD z && (laneAt B ((x + 2) % 5) y).getLsbD z))

/-- 40_permutation.md R79 and R80: iota XORs into lane 0 the constant the shift register gives for the round, and changes no other
lane. -/
def Obligations.IotaXorsTheGeneratedConstant : Prop :=
  ∀ (A : Lanes) (r : Fin 24),
    (iota A r)[0] = A[0] ^^^ rcGenerated r.val ∧ ∀ i : Fin 25, i ≠ 0 → (iota A r)[i] = A[i]

/-- 40_permutation.md R81 and R82: the permutation is 24 rounds, round 0 first and round 23 last, each theta, rho, pi, chi, iota
in this order. -/
def Obligations.PermuteIsTwentyFourRounds : Prop :=
  ∀ A : Lanes, ∃ T : Nat → Lanes, T 0 = A ∧
    (∀ r : Fin 24, T (r.val + 1) = iota (chi (pi (rho (theta (T r.val))))) r) ∧ permute A = T 24

/-- 40_permutation.md R83: the flattened loop over `rotc` and `piln` is rho followed by pi. -/
def Obligations.FlattenedLoopIsRhoThenPi : Prop :=
  ∀ A : Lanes, rhoPiLoop A = pi (rho A)

/-- 40_permutation.md R72: the permutation "is a bijection on the 2^1600 states". -/
def Obligations.PermuteIsBijective : Prop :=
  Function.Bijective permute

/-! ## The sponge controller -/

/-- 41_sponge.md R90 and R91: the mode table; no other tag has a row. -/
def Obligations.ModeTable : Prop :=
  (∃ m, modeOfTag 0 = some m ∧ modeRate m = 1152 ∧ modeCapacity m = 448 ∧ modeBlockSize m = 144 ∧ modeDigestLength m = 28) ∧
  (∃ m, modeOfTag 1 = some m ∧ modeRate m = 1088 ∧ modeCapacity m = 512 ∧ modeBlockSize m = 136 ∧ modeDigestLength m = 32) ∧
  (∃ m, modeOfTag 2 = some m ∧ modeRate m = 832 ∧ modeCapacity m = 768 ∧ modeBlockSize m = 104 ∧ modeDigestLength m = 48) ∧
  (∃ m, modeOfTag 3 = some m ∧ modeRate m = 576 ∧ modeCapacity m = 1024 ∧ modeBlockSize m = 72 ∧ modeDigestLength m = 64) ∧
  (∀ tag, 3 < tag → modeOfTag tag = none) ∧
  (∀ m, modeCapacity m = 1600 - modeRate m ∧ modeCapacity m = 16 * modeDigestLength m ∧
    modeBlockSize m = modeRate m / 8 ∧ modeBlockSize m % 8 = 0 ∧ modeDigestLength m < modeBlockSize m) ∧
  (modeBlockSize .sha3_224 / 8 = 18 ∧ modeBlockSize .sha3_256 / 8 = 17 ∧ modeBlockSize .sha3_384 / 8 = 13 ∧
    modeBlockSize .sha3_512 / 8 = 9)

/-- 20_memory.md R32: lane `i` holds state bytes `8i .. 8i+7`, least significant byte first. -/
def Obligations.LanesAreLittleEndian : Prop :=
  ∀ (A : Lanes) (i : Fin 25),
    A[i].toNat = ((List.range 8).map fun j => (stateByte A (8 * i.val + j)).toNat * 2 ^ (8 * j)).sum

/-- 41_sponge.md R93: the lane form of the XOR of a block is its byte form. -/
def Obligations.LaneFormIsByteForm : Prop :=
  ∀ (A : Lanes) (blk : List Byte), blk.length ≤ 200 → xorBlock A blk = xorBlockBytes A blk

/-- 20_memory.md R34 and R33: a block goes into the first state bytes, byte `j` to state byte `j`, and into nothing else. -/
def Obligations.BlockGoesIntoTheRate : Prop :=
  ∀ (A : Lanes) (blk : List Byte) (k : Nat), k < 200 →
    (∀ h : k < blk.length, stateByte (xorBlock A blk) k = stateByte A k ^^^ blk[k]) ∧
    (blk.length ≤ k → stateByte (xorBlock A blk) k = stateByte A k)

/-- 41_sponge.md R94 and R105: an update absorbs, in message order, the `(pending_len + len(d)) div bs` whole blocks of
`pending ‖ d` and leaves the rest pending; nothing else of the instance changes. -/
def Obligations.UpdateAbsorbsWholeBlocks : Prop :=
  ∀ (X : Sponge) (d : List Byte), 0 < X.blockSize →
    updateInstance X d =
      { X with
        A := absorbBlocks X.A (blocksOf X.blockSize ((X.pending.length + d.length) / X.blockSize) (X.pending ++ d))
        pending := (X.pending ++ d).drop (X.blockSize * ((X.pending.length + d.length) / X.blockSize))
        pendingLen := (X.pending.length + d.length) % X.blockSize }

/-- 41_sponge.md R99: the byte-serial controller computes the same instance. -/
def Obligations.ByteSerialUpdateAgrees : Prop :=
  ∀ (X : Sponge) (d : List Byte), X.pendingLen = X.pending.length → X.pendingLen < X.blockSize →
    updateBytewise X d = updateInstance X d

/-- 10_state.md R17: after INIT and any updates with concatenation `M`, `pending` is `M` from its last whole block on and `A` is
the result of absorbing the whole blocks of `M` into the zero state. -/
def Obligations.AbsorbedStateIsAFunctionOfTheMessage : Prop :=
  ∀ (m : Mode) (chunks : List (List Byte)),
    let bs := modeBlockSize m
    let M := chunks.flatten
    let X := chunks.foldl updateInstance (initInstance m)
    X.phase = .absorbing ∧ X.mode = m ∧ X.pending = M.drop (bs * (M.length / bs)) ∧ X.pendingLen = X.pending.length ∧
      X.A = absorbBlocks (Vector.replicate 25 0) (blocksOf bs (M.length / bs) M)

/-- 41_sponge.md R95: the final block has exactly `bs` bytes, is the single formula of the rule, and ends in `86` exactly when one
byte of room is left (90_conflicts.md C1). -/
def Obligations.PadBlockForm : Prop :=
  ∀ (p : List Byte) (bs : Nat), p.length < bs →
    (padBlock p bs).length = bs ∧
    (∀ k, k < bs → (padBlock p bs).getD k 0 =
      (p.getD k 0 ^^^ (if k = p.length then 0x06 else 0) ^^^ (if k = bs - 1 then 0x80 else 0))) ∧
    ((padBlock p bs).getLast? = some 0x86 ↔ p.length = bs - 1)

/-- 41_sponge.md R96: while `dl ≤ bs`, as in all four modes, the squeeze is the first `dl` state bytes and no `PERMUTE`
happens. -/
def Obligations.SqueezeTakesTheFirstBytes : Prop :=
  ∀ X : Sponge, X.digestLength ≤ X.blockSize →
    squeeze X = ((List.range X.digestLength).map (stateByte X.A), X.A)

/-- 41_sponge.md R98 and R105: the hash is the digest of the `len(M) div bs + 1` blocks of `M ‖ pad`. -/
def Obligations.HashUnfolds : Prop :=
  ∀ (m : Mode) (M : List Byte),
    hashOf m M = hashUnfolded m M ∧ (hashOf m M).length = modeDigestLength m

/-! ## The HMAC engine -/

/-- 42_hmac.md R120: a key of at most a block is used as it is, a longer one is hashed; then zeros to a block. -/
def Obligations.KeyBlockForm : Prop :=
  ∀ (m : Mode) (key : List Byte),
    (keyBlock m key).length = modeBlockSize m ∧
    (key.length ≤ modeBlockSize m → ∀ k, (keyBlock m key).getD k 0 = key.getD k 0) ∧
    (modeBlockSize m < key.length → ∀ k, (keyBlock m key).getD k 0 = (hashUnfolded m key).getD k 0)

/-- 42_hmac.md R121 and R122: what HMAC_INIT leaves in every field of the instance: the pads, and an inner sponge that has absorbed
exactly the `ipad` block and holds nothing pending. -/
def Obligations.HmacInitLeaves : Prop :=
  ∀ (m : Mode) (key : List Byte),
    let Y := hmacInitInstance m key
    let bs := modeBlockSize m
    Y.mode = m ∧ Y.blockSize = bs ∧
    (∀ j : Fin 144, j.val < bs → Y.ipad[j] = (keyBlock m key).getD j.val 0 ^^^ 0x36 ∧
      Y.opad[j] = (keyBlock m key).getD j.val 0 ^^^ 0x5C) ∧
    (∀ j : Fin 144, bs ≤ j.val → Y.ipad[j] = 0 ∧ Y.opad[j] = 0) ∧
    Y.inner = { initInstance m with
      A := permute (xorBlock (Vector.replicate 25 0) ((keyBlock m key).map (· ^^^ 0x36))) }

/-- 42_hmac.md R127 (a) and (c): a key longer than a block and its digest give the same MAC, always; so do a key and the key with
zeros behind it within a block. -/
def Obligations.KeyLengthProperties : Prop :=
  ∀ (m : Mode) (key M : List Byte) (n : Nat),
    (modeBlockSize m < key.length → hmacOf m key M = hmacOf m (hashOf m key) M) ∧
    (key.length + n ≤ modeBlockSize m → hmacOf m key M = hmacOf m (key ++ List.replicate n 0) M)

/-- 42_hmac.md R126: the instance operations init, any updates, final compute `Hmac(tag, key, M)` of the concatenation. -/
def Obligations.HmacInstanceComputesHmac : Prop :=
  ∀ (m : Mode) (key : List Byte) (chunks : List (List Byte)),
    let Y := hmacInitInstance m key
    (hmacFinalInstance { Y with inner := chunks.foldl updateInstance Y.inner }).1 = hmacOf m key chunks.flatten

/-! ## The commands: what each leaves, in every form -/

/-- 41_sponge.md R100: `SPONGE_INIT`, in every phase of `S` and for every tag; all else is unchanged. -/
def Obligations.SpongeInitResult : Prop :=
  ∀ (f : Fields) (s : State), PayloadThere f s →
    (f.mode = 0 → exec (.spongeInit f) s =
      .next (afterCommand f s (freshSponge .sha3_224 1152 448 144 28) s.HM [] .ok)) ∧
    (f.mode = 1 → exec (.spongeInit f) s =
      .next (afterCommand f s (freshSponge .sha3_256 1088 512 136 32) s.HM [] .ok)) ∧
    (f.mode = 2 → exec (.spongeInit f) s =
      .next (afterCommand f s (freshSponge .sha3_384 832 768 104 48) s.HM [] .ok)) ∧
    (f.mode = 3 → exec (.spongeInit f) s =
      .next (afterCommand f s (freshSponge .sha3_512 576 1024 72 64) s.HM [] .ok)) ∧
    (3 < f.mode → exec (.spongeInit f) s = .next (afterFailure f s .invalidMode))

/-- 41_sponge.md R101: `SPONGE_UPDATE` in every phase and with every form of its input: the whole blocks of `pending ‖ d` are
absorbed in order, the rest is left pending; all else is unchanged. -/
def Obligations.SpongeUpdateResult : Prop :=
  ∀ (f : Fields) (s : State), Inv s → PayloadThere f s →
    let buf := s.S.pending ++ s.din.take f.dlen
    let bs := s.S.blockSize
    (s.S.phase ≠ .absorbing → exec (.spongeUpdate f) s = .next (afterFailure f s .invalidState)) ∧
    (s.S.phase = .absorbing → f.ibp = false → 0 < f.dlen →
      exec (.spongeUpdate f) s = .next (afterFailure f s .nullInput)) ∧
    (s.S.phase = .absorbing → f.ibp = false → f.dlen = 0 →
      exec (.spongeUpdate f) s = .next (afterCommand f s s.S s.HM [] .ok)) ∧
    (s.S.phase = .absorbing → f.ibp = true →
      exec (.spongeUpdate f) s =
        .next (afterCommand f s
          { s.S with
            A := absorbBlocks s.S.A (blocksOf bs (buf.length / bs) buf)
            pending := buf.drop (bs * (buf.length / bs))
            pendingLen := buf.length % bs }
          s.HM [] .ok))

/-- 41_sponge.md R102 and R97: `SPONGE_FINAL` in every phase and with and without an output buffer: the digest is the first `dl`
state bytes after the padded block is absorbed; the instance is spent; all else is unchanged. -/
def Obligations.SpongeFinalResult : Prop :=
  ∀ (f : Fields) (s : State), Inv s → PayloadThere f s →
    (s.S.phase ≠ .absorbing → exec (.spongeFinal f) s = .next (afterFailure f s .invalidState)) ∧
    (s.S.phase = .absorbing → f.obp = false →
      exec (.spongeFinal f) s = .next (afterFailure f s .nullOutput)) ∧
    (s.S.phase = .absorbing → f.obp = true → s.outReady = true →
      exec (.spongeFinal f) s =
        .next (afterCommand f s
          { s.S with
            A := absorbBlock s.S.A (padBlock s.S.pending s.S.blockSize)
            pending := []
            pendingLen := 0
            phase := .squeezed }
          s.HM
          (stateBytes (absorbBlock s.S.A (padBlock s.S.pending s.S.blockSize)) s.S.digestLength) .ok))

/-- 41_sponge.md R103: `HASH` with every form of its buffers and for every tag, whatever the phases of `S` and `HM`, which it
leaves alone. -/
def Obligations.HashResult : Prop :=
  ∀ (f : Fields) (s : State), PayloadThere f s →
    ((f.ibp = false ∨ f.obp = false) → exec (.hash f) s = .next (afterFailure f s .invalidArgument)) ∧
    (f.ibp = true → f.obp = true → 3 < f.mode → exec (.hash f) s = .next (afterFailure f s .invalidMode)) ∧
    (∀ m, f.ibp = true → f.obp = true → modeOfTag f.mode = some m → s.outReady = true →
      exec (.hash f) s =
        .next (afterCommand f s s.S s.HM (hashUnfolded m (s.din.take f.dlen)) .ok))

/-- 42_hmac.md R122: `HMAC_INIT` with and without a key and for every tag, in every phase of `HM`: the pads of the key block, and a
fresh inner sponge that has absorbed the `ipad` block; all else is unchanged. -/
def Obligations.HmacInitResult : Prop :=
  ∀ (f : Fields) (s : State), PayloadThere f s →
    (f.kbp = false → exec (.hmacInit f) s = .next (afterFailure f s .invalidArgument)) ∧
    (f.kbp = true → 3 < f.mode → exec (.hmacInit f) s = .next (afterFailure f s .invalidMode)) ∧
    (∀ m, f.kbp = true → modeOfTag f.mode = some m →
      exec (.hmacInit f) s =
        .next (afterCommand f s s.S
          { mode := m
            blockSize := modeBlockSize m
            ipad := Vector.ofFn fun j =>
              if j.val < modeBlockSize m then (keyBlock m (s.kin.take f.klen)).getD j.val 0 ^^^ 0x36 else 0
            opad := Vector.ofFn fun j =>
              if j.val < modeBlockSize m then (keyBlock m (s.kin.take f.klen)).getD j.val 0 ^^^ 0x5C else 0
            inner := { initInstance m with
              A := permute (xorBlock (Vector.replicate 25 0) ((keyBlock m (s.kin.take f.klen)).map (· ^^^ 0x36))) } }
          [] .ok))

/-- 42_hmac.md R123: `HMAC_UPDATE` in every phase and with every form of its input: only `HM.inner` changes. -/
def Obligations.HmacUpdateResult : Prop :=
  ∀ (f : Fields) (s : State), Inv s → PayloadThere f s →
    let buf := s.HM.inner.pending ++ s.din.take f.dlen
    let bs := s.HM.inner.blockSize
    (s.HM.inner.phase ≠ .absorbing → exec (.hmacUpdate f) s = .next (afterFailure f s .invalidState)) ∧
    (s.HM.inner.phase = .absorbing → f.ibp = false → 0 < f.dlen →
      exec (.hmacUpdate f) s = .next (afterFailure f s .nullInput)) ∧
    (s.HM.inner.phase = .absorbing → f.ibp = false → f.dlen = 0 →
      exec (.hmacUpdate f) s = .next (afterCommand f s s.S s.HM [] .ok)) ∧
    (s.HM.inner.phase = .absorbing → f.ibp = true →
      exec (.hmacUpdate f) s =
        .next (afterCommand f s s.S
          { s.HM with
            inner := { s.HM.inner with
              A := absorbBlocks s.HM.inner.A (blocksOf bs (buf.length / bs) buf)
              pending := buf.drop (bs * (buf.length / bs))
              pendingLen := buf.length % bs } }
          [] .ok))

/-- 42_hmac.md R124: `HMAC_FINAL` in every phase and with and without an output buffer: the MAC is the hash of
`opad ‖ inner digest`; the inner sponge is spent, both pads are zero; all else is unchanged. -/
def Obligations.HmacFinalResult : Prop :=
  ∀ (f : Fields) (s : State), Inv s → PayloadThere f s →
    (s.HM.inner.phase ≠ .absorbing → exec (.hmacFinal f) s = .next (afterFailure f s .invalidState)) ∧
    (s.HM.inner.phase = .absorbing → f.obp = false →
      exec (.hmacFinal f) s = .next (afterFailure f s .invalidArgument)) ∧
    (s.HM.inner.phase = .absorbing → f.obp = true → s.outReady = true →
      exec (.hmacFinal f) s =
        .next (afterCommand f s s.S
          { mode := s.HM.mode
            blockSize := s.HM.blockSize
            ipad := Vector.replicate 144 0
            opad := Vector.replicate 144 0
            inner := { s.HM.inner with
              A := absorbBlock s.HM.inner.A (padBlock s.HM.inner.pending s.HM.inner.blockSize)
              pending := []
              pendingLen := 0
              phase := .squeezed } }
          (hashUnfolded s.HM.mode (s.HM.opad.toList.take s.HM.blockSize ++
            stateBytes (absorbBlock s.HM.inner.A (padBlock s.HM.inner.pending s.HM.inner.blockSize))
              s.HM.inner.digestLength)) .ok))

/-- 42_hmac.md R125 and R126: the one-shot `HMAC` in every form: its MAC is `Hmac(mode, key, data)`, an absent input with `dlen` 0
being the empty message; `S` and `HM` are left alone. -/
def Obligations.HmacOneShotResult : Prop :=
  ∀ (f : Fields) (s : State), PayloadThere f s →
    (f.kbp = false → exec (.hmac f) s = .next (afterFailure f s .invalidArgument)) ∧
    (f.kbp = true → 3 < f.mode → exec (.hmac f) s = .next (afterFailure f s .invalidMode)) ∧
    (f.kbp = true → f.mode ≤ 3 → f.ibp = false → 0 < f.dlen →
      exec (.hmac f) s = .next (afterFailure f s .nullInput)) ∧
    (f.kbp = true → f.mode ≤ 3 → (f.ibp = true ∨ f.dlen = 0) → f.obp = false →
      exec (.hmac f) s = .next (afterFailure f s .invalidArgument)) ∧
    (∀ m, f.kbp = true → modeOfTag f.mode = some m → (f.ibp = true ∨ f.dlen = 0) → f.obp = true → s.outReady = true →
      exec (.hmac f) s =
        .next (afterCommand f s s.S s.HM (hmacOf m (s.kin.take f.klen) (s.din.take f.dlen)) .ok))

/-! ## Rules over all commands -/

/-- 60_exceptions.md R147: when several causes apply to a command word, the status is that of the first check in its row,
`IllegalCommand` before all others. -/
def Obligations.FirstFailingCheckGivesTheStatus : Prop :=
  ∀ (s : State) (w : CmdWord) (rest : List CmdWord),
    s.rst = false → s.cmd = w :: rest → PayloadThere (fieldsOf w) s → s.outReady = true →
    ∃ X Y out, step s = .next (afterCommand (fieldsOf w) s X Y out (statusOfWord w s))

/-- 60_exceptions.md R148: a command word that ends with a status other than `OK` leaves every context as it was, emits nothing, has
consumed its payload and gives that status, whether or not the host takes output. -/
def Obligations.FailedCommandChangesNothing : Prop :=
  ∀ (s : State) (w : CmdWord) (rest : List CmdWord),
    s.rst = false → s.cmd = w :: rest → PayloadThere (fieldsOf w) s → statusOfWord w s ≠ .ok →
    step s = .next (afterFailure (fieldsOf w) s (statusOfWord w s))

/-- 30_encoding.md R59: a command emits exactly its mode's digest length on `OK`, and only a digest command emits; any other end
emits nothing. -/
def Obligations.OutputIsAllOrNothing : Prop :=
  ∀ (i : Instr) (s t : State), Inv s → exec i s = .next t →
    ∃ out, t.dout = s.dout ++ out ∧
      (t.resp = s.resp ++ [.ok] → out.length = outputLength i s) ∧
      (t.resp ≠ s.resp ++ [.ok] → out = [])

/-- 10_state.md R16 and R19: the complete table of phase changes of the two contexts by commands. -/
def Obligations.PhaseChanges : Prop :=
  ∀ (i : Instr) (s t : State), exec i s = .next t →
    (t.S.phase = s.S.phase ∨
      ((∃ f, i = .spongeInit f) ∧ t.S.phase = .absorbing ∧ t.resp = s.resp ++ [.ok]) ∨
      ((∃ f, i = .spongeFinal f) ∧ s.S.phase = .absorbing ∧ t.S.phase = .squeezed ∧ t.resp = s.resp ++ [.ok])) ∧
    (t.HM.inner.phase = s.HM.inner.phase ∨
      ((∃ f, i = .hmacInit f) ∧ t.HM.inner.phase = .absorbing ∧ t.resp = s.resp ++ [.ok]) ∨
      ((∃ f, i = .hmacFinal f) ∧ s.HM.inner.phase = .absorbing ∧ t.HM.inner.phase = .squeezed ∧
        t.resp = s.resp ++ [.ok]))

/-- 10_state.md R10 and 20_memory.md R40: only the three `SPONGE_*` commands write `S`, only the three streaming HMAC commands
write `HM`. -/
def Obligations.ContextsAreWrittenByTheirOwnCommands : Prop :=
  ∀ (i : Instr) (s t : State), exec i s = .next t →
    ((∀ f, i ≠ .spongeInit f ∧ i ≠ .spongeUpdate f ∧ i ≠ .spongeFinal f) → t.S = s.S) ∧
    ((∀ f, i ≠ .hmacInit f ∧ i ≠ .hmacUpdate f ∧ i ≠ .hmacFinal f) → t.HM = s.HM)

/-- 20_memory.md R40: what a `SPONGE_*` command answers and leaves in `S` does not depend on `HM`, what a streaming HMAC command
answers and leaves in `HM` does not depend on `S`, and `HASH` and `HMAC` depend on neither: two states that agree on the context in
hand, on the payload and on the channels get the same response, the same output and the same context. -/
def Obligations.ContextsDoNotInterfere : Prop :=
  ∀ (i : Instr) (s1 s2 t1 t2 : State),
    s1.din = s2.din → s1.kin = s2.kin → s1.dout = s2.dout → s1.resp = s2.resp → s1.outReady = s2.outReady →
    exec i s1 = .next t1 → exec i s2 = .next t2 →
    ((∃ f, i = .spongeInit f ∨ i = .spongeUpdate f ∨ i = .spongeFinal f) → s1.S = s2.S →
      t1.S = t2.S ∧ t1.resp = t2.resp ∧ t1.dout = t2.dout) ∧
    ((∃ f, i = .hmacInit f ∨ i = .hmacUpdate f ∨ i = .hmacFinal f) → s1.HM = s2.HM →
      t1.HM = t2.HM ∧ t1.resp = t2.resp ∧ t1.dout = t2.dout) ∧
    ((∃ f, i = .hash f ∨ i = .hmac f) → t1.resp = t2.resp ∧ t1.dout = t2.dout)

/-- 30_encoding.md R57: the fields a command does not use have no effect: two words of one command that agree on the used fields
leave the same contexts, the same output and the same status; each takes the payload its own word announces. -/
def Obligations.IgnoredFieldsHaveNoEffect : Prop :=
  ∀ (i j : Instr) (s : State), usedFieldsAgree i j →
    PayloadThere i.fields s → PayloadThere j.fields s → s.outReady = true →
    ∃ X Y out st, exec i s = .next (afterCommand i.fields s X Y out st) ∧
      exec j s = .next (afterCommand j.fields s X Y out st)

/-- 10_state.md R18, R25 and 70_reset_and_hazards.md R178: the key pads change only by a successful `HMAC_INIT` or `HMAC_FINAL`, and
a successful `HMAC_FINAL` leaves all 144 bytes of each zero. -/
def Obligations.KeyPadsChangeOnlyAtInitAndFinal : Prop :=
  ∀ (i : Instr) (s t : State), exec i s = .next t →
    (t.HM.ipad = s.HM.ipad ∧ t.HM.opad = s.HM.opad) ∨
    ((∃ f, i = .hmacInit f) ∧ t.resp = s.resp ++ [.ok]) ∨
    ((∃ f, i = .hmacFinal f) ∧ t.resp = s.resp ++ [.ok] ∧
      ∀ j : Fin 144, t.HM.ipad[j] = 0 ∧ t.HM.opad[j] = 0)

/-- 20_memory.md R38: an update with an empty payload, present or absent, succeeds in the absorbing phase and leaves the contexts
as they were. -/
def Obligations.EmptyUpdatesChangeNothing : Prop :=
  ∀ (f : Fields) (s : State), Inv s → PayloadThere f s → f.dlen = 0 →
    (s.S.phase = .absorbing →
      exec (.spongeUpdate f) s = .next (afterCommand f s s.S s.HM [] .ok)) ∧
    (s.HM.inner.phase = .absorbing →
      exec (.hmacUpdate f) s = .next (afterCommand f s s.S s.HM [] .ok))

/-! ## Invariants and whole messages -/

/-- 10_state.md R13 to R19: every step keeps the invariant of the contexts. -/
def Obligations.StepKeepsTheInvariant : Prop :=
  ∀ s t : State, Inv s → step s = .next t → Inv t

/-- 10_state.md R24: the invariant holds right after reset, and both phases are `UNINIT` there. -/
def Obligations.ResetHasTheInvariant : Prop :=
  Inv State.reset ∧ State.reset.S.phase = .uninit ∧ State.reset.HM.inner.phase = .uninit

/-- 10_state.md R13 and R18: every step keeps every field within its width, and reset leaves it so. -/
def Obligations.FieldsKeepTheirWidths : Prop :=
  fieldsFit State.reset ∧ ∀ s t : State, Inv s → fieldsFit s → step s = .next t → fieldsFit t

/-- 10_state.md R24 and 70_reset_and_hazards.md R172: what a reset leaves unspecified is never seen: a step takes two states that
differ only there to two states that differ only there, with the same responses and the same output. -/
def Obligations.UnspecifiedFieldsAreNeverSeen : Prop :=
  ∀ s1 s2 t1 t2 : State, SameButUnspecified s1 s2 → step s1 = .next t1 → step s2 = .next t2 → SameButUnspecified t1 t2

/-- 20_memory.md R43 and 41_sponge.md R104 (b): from any state, INIT, one UPDATE for each chunk, FINAL run as words on `CMD`
answer `OK` throughout, emit `Hash(mode, M)` of the concatenation `M` of the chunks, however it is split, and leave `S` as the
single update by `M` would. -/
def Obligations.StreamedDigest : Prop :=
  ∀ (m : Mode) (fi ff : Fields) (chunks : List (List Byte)) (s : State) (restCmd : List CmdWord) (restDin : List Byte),
    fi.wellFormed = true → ff.wellFormed = true →
    modeOfTag fi.mode = some m → fi.ibp = false → fi.kbp = false →
    ff.obp = true → ff.ibp = false → ff.kbp = false →
    (∀ c ∈ chunks, c.length < 2 ^ 24) → s.rst = false → s.outReady = true →
    s.cmd = encode (.spongeInit fi) :: (chunks.map fun c => encode (.spongeUpdate (dataFields c))) ++
      encode (.spongeFinal ff) :: restCmd →
    s.din = chunks.flatten ++ restDin →
    Host.Core.run Sys2Proof.core (chunks.length + 2) s =
      .next { s with
        S := (finalizeInstance (updateInstance (initInstance m) chunks.flatten)).2
        cmd := restCmd
        din := restDin
        dout := s.dout ++ hashUnfolded m chunks.flatten
        resp := s.resp ++ List.replicate (chunks.length + 2) .ok }

/-- 42_hmac.md R126: from any state, HMAC_INIT with a key, one HMAC_UPDATE for each chunk, HMAC_FINAL run as words on `CMD` answer
`OK` throughout and emit `Hmac(mode, key, M)` of the concatenation `M` of the chunks. -/
def Obligations.StreamedMac : Prop :=
  ∀ (m : Mode) (fi ff : Fields) (key : List Byte) (chunks : List (List Byte)) (s : State)
    (restCmd : List CmdWord) (restDin restKin : List Byte),
    fi.wellFormed = true → ff.wellFormed = true →
    modeOfTag fi.mode = some m → fi.ibp = false → fi.kbp = true → fi.klen = key.length →
    ff.obp = true → ff.ibp = false → ff.kbp = false →
    (∀ c ∈ chunks, c.length < 2 ^ 24) → s.rst = false → s.outReady = true →
    s.cmd = encode (.hmacInit fi) :: (chunks.map fun c => encode (.hmacUpdate (dataFields c))) ++
      encode (.hmacFinal ff) :: restCmd →
    s.din = chunks.flatten ++ restDin → s.kin = key ++ restKin →
    ∃ t, Host.Core.run Sys2Proof.core (chunks.length + 2) s = .next t ∧
      t.S = s.S ∧ t.cmd = restCmd ∧ t.din = restDin ∧ t.kin = restKin ∧
      t.dout = s.dout ++ hmacOf m key chunks.flatten ∧
      t.resp = s.resp ++ List.replicate (chunks.length + 2) .ok
end

