-- ==== Sys2Proof/Laws/State.lean ====
section
/-! SUPPORT. One lemma per field per update of the state, each true by rfl, so that no later proof unfolds a record update. -/

namespace Sys2Proof.Machine

/-! ### Taking a command -/

@[simp] theorem acceptCommand_S (f : Fields) (s : State) : (acceptCommand f s).S = s.S := rfl
@[simp] theorem acceptCommand_HM (f : Fields) (s : State) : (acceptCommand f s).HM = s.HM := rfl
@[simp] theorem acceptCommand_cmd (f : Fields) (s : State) : (acceptCommand f s).cmd = s.cmd.tail := rfl
@[simp] theorem acceptCommand_din (f : Fields) (s : State) : (acceptCommand f s).din = s.din.drop (dinCount f) := rfl
@[simp] theorem acceptCommand_kin (f : Fields) (s : State) : (acceptCommand f s).kin = s.kin.drop (kinCount f) := rfl
@[simp] theorem acceptCommand_dout (f : Fields) (s : State) : (acceptCommand f s).dout = s.dout := rfl
@[simp] theorem acceptCommand_resp (f : Fields) (s : State) : (acceptCommand f s).resp = s.resp := rfl
@[simp] theorem acceptCommand_outReady (f : Fields) (s : State) : (acceptCommand f s).outReady = s.outReady := rfl
@[simp] theorem acceptCommand_rst (f : Fields) (s : State) : (acceptCommand f s).rst = s.rst := rfl
@[simp] theorem acceptCommand_resets (f : Fields) (s : State) : (acceptCommand f s).resets = s.resets := rfl

/-! ### Responding -/

@[simp] theorem respond_S (st : Status) (s : State) : (respond st s).S = s.S := rfl
@[simp] theorem respond_HM (st : Status) (s : State) : (respond st s).HM = s.HM := rfl
@[simp] theorem respond_cmd (st : Status) (s : State) : (respond st s).cmd = s.cmd := rfl
@[simp] theorem respond_din (st : Status) (s : State) : (respond st s).din = s.din := rfl
@[simp] theorem respond_kin (st : Status) (s : State) : (respond st s).kin = s.kin := rfl
@[simp] theorem respond_dout (st : Status) (s : State) : (respond st s).dout = s.dout := rfl
@[simp] theorem respond_resp (st : Status) (s : State) : (respond st s).resp = s.resp ++ [st] := rfl
@[simp] theorem respond_outReady (st : Status) (s : State) : (respond st s).outReady = s.outReady := rfl
@[simp] theorem respond_rst (st : Status) (s : State) : (respond st s).rst = s.rst := rfl
@[simp] theorem respond_resets (st : Status) (s : State) : (respond st s).resets = s.resets := rfl

/-! ### The state after a command -/

section
variable (f : Fields) (s : State) (X : Sponge) (Y : Hmac) (out : List Byte) (st : Status)

@[simp] theorem afterCommand_S : (afterCommand f s X Y out st).S = X := rfl
@[simp] theorem afterCommand_HM : (afterCommand f s X Y out st).HM = Y := rfl
@[simp] theorem afterCommand_cmd : (afterCommand f s X Y out st).cmd = s.cmd.tail := rfl
@[simp] theorem afterCommand_din :
    (afterCommand f s X Y out st).din = if f.ibp then s.din.drop f.dlen else s.din := rfl
@[simp] theorem afterCommand_kin :
    (afterCommand f s X Y out st).kin = if f.kbp then s.kin.drop f.klen else s.kin := rfl
@[simp] theorem afterCommand_dout : (afterCommand f s X Y out st).dout = s.dout ++ out := rfl
@[simp] theorem afterCommand_resp : (afterCommand f s X Y out st).resp = s.resp ++ [st] := rfl
@[simp] theorem afterCommand_outReady : (afterCommand f s X Y out st).outReady = s.outReady := rfl
@[simp] theorem afterCommand_rst : (afterCommand f s X Y out st).rst = s.rst := rfl
@[simp] theorem afterCommand_resets : (afterCommand f s X Y out st).resets = s.resets := rfl

end

/-! ### Reset -/

section
variable (n : Nat) (x : Context) (r : Bool)

@[simp] theorem resetSponge_phase : (State.resetSponge n x).phase = .uninit := rfl
@[simp] theorem resetHmac_inner : (State.resetHmac n).inner = State.resetSponge n .inner := rfl
@[simp] theorem afterReset_S : (State.afterReset n r).S = State.resetSponge n .S := rfl
@[simp] theorem afterReset_HM : (State.afterReset n r).HM = State.resetHmac n := rfl
@[simp] theorem afterReset_cmd : (State.afterReset n r).cmd = [] := rfl
@[simp] theorem afterReset_din : (State.afterReset n r).din = [] := rfl
@[simp] theorem afterReset_kin : (State.afterReset n r).kin = [] := rfl
@[simp] theorem afterReset_dout : (State.afterReset n r).dout = [] := rfl
@[simp] theorem afterReset_resp : (State.afterReset n r).resp = [] := rfl
@[simp] theorem afterReset_outReady : (State.afterReset n r).outReady = r := rfl
@[simp] theorem afterReset_rst : (State.afterReset n r).rst = false := rfl
@[simp] theorem afterReset_resets : (State.afterReset n r).resets = n := rfl

theorem resetSponge_pendingLen :
    (State.resetSponge n x).pendingLen = (State.resetSponge n x).pending.length := by
  simp [State.resetSponge]

end

/-! ### The instances -/

section
variable (m : Mode)

@[simp] theorem initInstance_A : (initInstance m).A = Vector.replicate 25 0 := rfl
@[simp] theorem initInstance_mode : (initInstance m).mode = m := rfl
@[simp] theorem initInstance_rate : (initInstance m).rate = modeRate m := rfl
@[simp] theorem initInstance_capacity : (initInstance m).capacity = modeCapacity m := rfl
@[simp] theorem initInstance_digestLength : (initInstance m).digestLength = modeDigestLength m := rfl
@[simp] theorem initInstance_blockSize : (initInstance m).blockSize = modeBlockSize m := rfl
@[simp] theorem initInstance_pending : (initInstance m).pending = [] := rfl
@[simp] theorem initInstance_pendingLen : (initInstance m).pendingLen = 0 := rfl
@[simp] theorem initInstance_phase : (initInstance m).phase = .absorbing := rfl

end

section
variable (X : Sponge) (d : List Byte)

@[simp] theorem updateInstance_mode : (updateInstance X d).mode = X.mode := rfl
@[simp] theorem updateInstance_rate : (updateInstance X d).rate = X.rate := rfl
@[simp] theorem updateInstance_capacity : (updateInstance X d).capacity = X.capacity := rfl
@[simp] theorem updateInstance_digestLength : (updateInstance X d).digestLength = X.digestLength := rfl
@[simp] theorem updateInstance_blockSize : (updateInstance X d).blockSize = X.blockSize := rfl
@[simp] theorem updateInstance_phase : (updateInstance X d).phase = X.phase := rfl
theorem updateInstance_pendingLen : (updateInstance X d).pendingLen = (updateInstance X d).pending.length := rfl

@[simp] theorem finalizeInstance_mode : (finalizeInstance X).2.mode = X.mode := rfl
@[simp] theorem finalizeInstance_rate : (finalizeInstance X).2.rate = X.rate := rfl
@[simp] theorem finalizeInstance_capacity : (finalizeInstance X).2.capacity = X.capacity := rfl
@[simp] theorem finalizeInstance_digestLength : (finalizeInstance X).2.digestLength = X.digestLength := rfl
@[simp] theorem finalizeInstance_blockSize : (finalizeInstance X).2.blockSize = X.blockSize := rfl
@[simp] theorem finalizeInstance_pending : (finalizeInstance X).2.pending = [] := rfl
@[simp] theorem finalizeInstance_pendingLen : (finalizeInstance X).2.pendingLen = 0 := rfl
@[simp] theorem finalizeInstance_phase : (finalizeInstance X).2.phase = .squeezed := rfl

end

section
variable (m : Mode) (key : List Byte) (Y : Hmac)

@[simp] theorem hmacInitInstance_mode : (hmacInitInstance m key).mode = m := rfl
@[simp] theorem hmacInitInstance_blockSize : (hmacInitInstance m key).blockSize = modeBlockSize m := rfl
@[simp] theorem hmacInitInstance_ipad : (hmacInitInstance m key).ipad = padOf ipadConst (keyBlock m key) := rfl
@[simp] theorem hmacInitInstance_opad : (hmacInitInstance m key).opad = padOf opadConst (keyBlock m key) := rfl
theorem hmacInitInstance_inner : (hmacInitInstance m key).inner =
    updateInstance (initInstance m) (padBytes (padOf ipadConst (keyBlock m key)) (modeBlockSize m)) := rfl

@[simp] theorem hmacFinalInstance_mode : (hmacFinalInstance Y).2.mode = Y.mode := rfl
@[simp] theorem hmacFinalInstance_blockSize : (hmacFinalInstance Y).2.blockSize = Y.blockSize := rfl
@[simp] theorem hmacFinalInstance_ipad : (hmacFinalInstance Y).2.ipad = zeroPad := rfl
@[simp] theorem hmacFinalInstance_opad : (hmacFinalInstance Y).2.opad = zeroPad := rfl
@[simp] theorem hmacFinalInstance_inner : (hmacFinalInstance Y).2.inner = (finalizeInstance Y.inner).2 := rfl
theorem hmacFinalInstance_out : (hmacFinalInstance Y).1 =
    hashOf Y.mode (padBytes Y.opad Y.blockSize ++ (finalizeInstance Y.inner).1) := rfl

end

@[simp] theorem noEffect_S (s : State) : (noEffect s).S = s.S := rfl
@[simp] theorem noEffect_HM (s : State) : (noEffect s).HM = s.HM := rfl
@[simp] theorem noEffect_out (s : State) : (noEffect s).out = [] := rfl

end Sys2Proof.Machine
end

