-- ==== Sys2Proof/Laws/Ops.lean ====
section
/-! SUPPORT. Everything the operations around a command can do: the framing of its payload, its end, and the four ways
`runCommand` can answer. -/

namespace Sys2Proof.Machine

theorem holds_iff_le_length (n : Nat) (l : List Byte) : holds n l = true ↔ n ≤ l.length := by
  induction n generalizing l with
  | zero => simp [holds]
  | succ n ih =>
    cases l with
    | nil => simp [holds]
    | cons b l => simp [holds, ih]

/-- The machine's test of framing is the condition claims speak of. -/
theorem framed_iff_payloadThere (f : Fields) (s : State) : framed f s = true ↔ PayloadThere f s := by
  simp only [framed, Bool.and_eq_true, holds_iff_le_length, dinCount, kinCount, PayloadThere]
  cases f.ibp <;> cases f.kbp <;> simp

theorem raise_eq_afterFailure (f : Fields) (st : Status) (s : State) : raise f st s = afterFailure f s st := by
  simp only [raise, respond, acceptCommand, afterFailure, afterCommand, dinCount, kinCount]
  cases f.ibp <;> cases f.kbp <;> simp

theorem complete_eq_afterCommand (f : Fields) (e : Effect) (s : State) :
    complete f e s = afterCommand f s e.S e.HM e.out .ok := by
  simp only [complete, respond, acceptCommand, afterCommand, dinCount, kinCount]
  cases f.ibp <;> cases f.kbp <;> simp

theorem runCommand_waits_for_payload {f : Fields} {s : State} (h : ¬ PayloadThere f s) (r : Except Status Effect) :
    runCommand f s r = .next s := by
  rw [← framed_iff_payloadThere] at h
  simp [runCommand, h, waitForHost]

theorem runCommand_error {f : Fields} {s : State} (h : PayloadThere f s) (st : Status) :
    runCommand f s (.error st) = .next (afterFailure f s st) := by
  rw [← framed_iff_payloadThere] at h
  simp [runCommand, h, raise_eq_afterFailure]

theorem runCommand_ok {f : Fields} {s : State} (h : PayloadThere f s) (e : Effect)
    (hout : e.out = [] ∨ s.outReady = true) :
    runCommand f s (.ok e) = .next (afterCommand f s e.S e.HM e.out .ok) := by
  rw [← framed_iff_payloadThere] at h
  simp [runCommand, h, hout, complete_eq_afterCommand]

theorem runCommand_waits_for_output {f : Fields} {s : State} (e : Effect) (h : e.out ≠ [])
    (hr : s.outReady = false) : runCommand f s (.ok e) = .next s := by
  simp [runCommand, h, hr, waitForHost]

/-- Everything a command can do: wait, fail and change no context, or complete. -/
theorem runCommand_cases {f : Fields} {s t : State} {r : Except Status Effect} (h : runCommand f s r = .next t) :
    t = s ∨
    (∃ st, r = .error st ∧ PayloadThere f s ∧ t = afterFailure f s st) ∨
    (∃ e, r = .ok e ∧ PayloadThere f s ∧ (e.out = [] ∨ s.outReady = true) ∧
      t = afterCommand f s e.S e.HM e.out .ok) := by
  by_cases hp : PayloadThere f s
  · cases r with
    | error st =>
      rw [runCommand_error hp] at h
      cases h
      exact .inr (.inl ⟨st, rfl, hp, rfl⟩)
    | ok e =>
      by_cases ho : e.out = [] ∨ s.outReady = true
      · rw [runCommand_ok hp e ho] at h
        cases h
        exact .inr (.inr ⟨e, rfl, hp, ho, rfl⟩)
      · simp only [not_or, Bool.not_eq_true] at ho
        rw [runCommand_waits_for_output e ho.1 ho.2] at h
        cases h
        exact .inl rfl
  · rw [runCommand_waits_for_payload hp] at h
    cases h
    exact .inl rfl

theorem runCommand_answers (f : Fields) (s : State) (r : Except Status Effect) : ∃ t, runCommand f s r = .next t := by
  unfold runCommand
  split
  · split
    · exact ⟨_, rfl⟩
    · split <;> exact ⟨_, rfl⟩
  · exact ⟨_, rfl⟩

/-- A tag selects a mode exactly when it is at most 3. -/
theorem modeOfTag_eq_none_iff (tag : Nat) : modeOfTag tag = none ↔ 3 < tag := by
  unfold modeOfTag
  split <;> simp_all
  omega

theorem modeOfTag_some_of_le {tag : Nat} (h : tag ≤ 3) : ∃ m, modeOfTag tag = some m := by
  cases hm : modeOfTag tag with
  | none => exact absurd ((modeOfTag_eq_none_iff tag).1 hm) (by omega)
  | some m => exact ⟨m, rfl⟩

theorem modeDigestLength_lt_blockSize (m : Mode) : modeDigestLength m < modeBlockSize m := by cases m <;> decide

theorem modeBlockSize_pos (m : Mode) : 0 < modeBlockSize m := by cases m <;> decide

theorem modeBlockSize_le (m : Mode) : modeBlockSize m ≤ 144 := by cases m <;> decide

end Sys2Proof.Machine
end

