-- ==== Sys2Proof/Laws/Commands.lean ====
section
/-! SUPPORT. Each command's checks and effect as plain cases, and the one shape of all eight meanings. -/

namespace Sys2Proof.Laws

open Sys2Proof.Machine

/-- The checks and effect of a command. -/
def effectOf (i : Instr) (s : State) : Except Status Effect :=
  match i with
  | .spongeInit f => spongeInitEffect f s
  | .spongeUpdate f => spongeUpdateEffect f s
  | .spongeFinal f => spongeFinalEffect f s
  | .hash f => hashEffect f s
  | .hmacInit f => hmacInitEffect f s
  | .hmacUpdate f => hmacUpdateEffect f s
  | .hmacFinal f => hmacFinalEffect f s
  | .hmac f => hmacEffect f s

/-- Every meaning is `runCommand` of the command's own fields and effect. -/
theorem exec_eq_runCommand (i : Instr) (s : State) : exec i s = runCommand i.fields s (effectOf i s) := by
  cases i <;> rfl

theorem checkedUpdate_of_not_absorbing {X : Sponge} (h : X.phase ≠ .absorbing) (data : Option (List Byte)) (n : Nat) :
    checkedUpdate X data n = .error .invalidState := by
  simp [checkedUpdate, requireAbsorbing, require, h, bind, Except.bind]

theorem checkedUpdate_some {X : Sponge} (h : X.phase = .absorbing) (d : List Byte) (n : Nat) :
    checkedUpdate X (some d) n = .ok (updateInstance X d) := by
  simp [checkedUpdate, requireAbsorbing, requireInput, require, h, bind, Except.bind, pure, Except.pure]

theorem checkedUpdate_none {X : Sponge} (h : X.phase = .absorbing) (n : Nat) :
    checkedUpdate X none n = if n = 0 then .ok X else .error .nullInput := by
  by_cases hn : n = 0 <;>
    simp [checkedUpdate, requireAbsorbing, requireInput, require, h, hn, bind, Except.bind, pure, Except.pure]

theorem spongeInitEffect_eq (f : Fields) (s : State) :
    spongeInitEffect f s = match modeOfTag f.mode with
      | none => .error .invalidMode
      | some m => .ok { noEffect s with S := initInstance m } := by
  unfold spongeInitEffect requireMode
  cases modeOfTag f.mode <;> rfl

theorem spongeUpdateEffect_eq (f : Fields) (s : State) :
    spongeUpdateEffect f s = match checkedUpdate s.S (dataOperand f s) f.dlen with
      | .error st => .error st
      | .ok X => .ok { noEffect s with S := X } := by
  unfold spongeUpdateEffect
  cases checkedUpdate s.S (dataOperand f s) f.dlen <;> rfl

theorem spongeFinalEffect_eq (f : Fields) (s : State) :
    spongeFinalEffect f s =
      if s.S.phase ≠ .absorbing then .error .invalidState
      else if f.obp = false then .error .nullOutput
      else .ok { noEffect s with S := (finalizeInstance s.S).2, out := (finalizeInstance s.S).1 } := by
  by_cases h : s.S.phase = .absorbing <;> cases ho : f.obp <;>
    simp [spongeFinalEffect, requireAbsorbing, require, h, ho, bind, Except.bind, pure, Except.pure]

theorem hashEffect_eq (f : Fields) (s : State) :
    hashEffect f s =
      if f.ibp = false ∨ f.obp = false then .error .invalidArgument
      else match modeOfTag f.mode with
        | none => .error .invalidMode
        | some m => .ok { noEffect s with out := hashOf m (s.din.take f.dlen) } := by
  unfold hashEffect requireMode dataOperand
  cases f.ibp <;> cases f.obp <;> cases modeOfTag f.mode <;> rfl

theorem hmacInitEffect_eq (f : Fields) (s : State) :
    hmacInitEffect f s =
      if f.kbp = false then .error .invalidArgument
      else match modeOfTag f.mode with
        | none => .error .invalidMode
        | some m => .ok { noEffect s with HM := hmacInitInstance m (s.kin.take f.klen) } := by
  unfold hmacInitEffect requireMode keyOperand
  cases f.kbp <;> cases modeOfTag f.mode <;> rfl

theorem hmacUpdateEffect_eq (f : Fields) (s : State) :
    hmacUpdateEffect f s = match checkedUpdate s.HM.inner (dataOperand f s) f.dlen with
      | .error st => .error st
      | .ok X => .ok { noEffect s with HM := { s.HM with inner := X } } := by
  unfold hmacUpdateEffect hmacUpdateInstance
  cases checkedUpdate s.HM.inner (dataOperand f s) f.dlen <;> rfl

theorem hmacFinalEffect_eq (f : Fields) (s : State) :
    hmacFinalEffect f s =
      if s.HM.inner.phase ≠ .absorbing then .error .invalidState
      else if f.obp = false then .error .invalidArgument
      else .ok { noEffect s with HM := (hmacFinalInstance s.HM).2, out := (hmacFinalInstance s.HM).1 } := by
  by_cases h : s.HM.inner.phase = .absorbing <;> cases ho : f.obp <;>
    simp [hmacFinalEffect, requireAbsorbing, require, h, ho, bind, Except.bind, pure, Except.pure]

theorem hmacInitInstance_inner_phase (m : Mode) (key : List Byte) : (hmacInitInstance m key).inner.phase = .absorbing := rfl

/-- The one-shot `HMAC`: the message is the payload, or empty where the input is absent with `dlen` 0. -/
theorem hmacEffect_eq (f : Fields) (s : State) :
    hmacEffect f s =
      if f.kbp = false then .error .invalidArgument
      else match modeOfTag f.mode with
        | none => .error .invalidMode
        | some m =>
          if f.ibp = false ∧ f.dlen ≠ 0 then .error .nullInput
          else if f.obp = false then .error .invalidArgument
          else
            let Y := hmacInitInstance m (s.kin.take f.klen)
            let X := if f.ibp then updateInstance Y.inner (s.din.take f.dlen) else Y.inner
            .ok { noEffect s with out := (hmacFinalInstance { Y with inner := X }).1 } := by
  unfold hmacEffect requireMode keyOperand hmacUpdateInstance dataOperand
  cases f.kbp
  · rfl
  cases hm : modeOfTag f.mode
  · rfl
  cases hi : f.ibp
  · by_cases hd : f.dlen = 0 <;> cases f.obp <;>
      simp [requireBuffer, checkedUpdate_none (hmacInitInstance_inner_phase _ _), hd, bind, Except.bind, pure,
        Except.pure, require]
  · cases f.obp <;>
      simp [requireBuffer, checkedUpdate_some (hmacInitInstance_inner_phase _ _), bind, Except.bind, pure, Except.pure, require]

/-- Everything a command that succeeds can do to the contexts and emit. -/
inductive Success (s : State) : Instr → Effect → Prop where
  | spongeInit {f : Fields} {m : Mode} (h : modeOfTag f.mode = some m) :
      Success s (.spongeInit f) { noEffect s with S := initInstance m }
  | spongeUpdate {f : Fields} (hp : s.S.phase = .absorbing) (h : f.ibp = true) :
      Success s (.spongeUpdate f) { noEffect s with S := updateInstance s.S (s.din.take f.dlen) }
  | spongeUpdateAbsent {f : Fields} (hp : s.S.phase = .absorbing) (h : f.ibp = false) (hd : f.dlen = 0) :
      Success s (.spongeUpdate f) (noEffect s)
  | spongeFinal {f : Fields} (hp : s.S.phase = .absorbing) (h : f.obp = true) :
      Success s (.spongeFinal f)
        { noEffect s with S := (finalizeInstance s.S).2, out := (finalizeInstance s.S).1 }
  | hash {f : Fields} {m : Mode} (hi : f.ibp = true) (ho : f.obp = true) (h : modeOfTag f.mode = some m) :
      Success s (.hash f) { noEffect s with out := hashOf m (s.din.take f.dlen) }
  | hmacInit {f : Fields} {m : Mode} (hk : f.kbp = true) (h : modeOfTag f.mode = some m) :
      Success s (.hmacInit f) { noEffect s with HM := hmacInitInstance m (s.kin.take f.klen) }
  | hmacUpdate {f : Fields} (hp : s.HM.inner.phase = .absorbing) (h : f.ibp = true) :
      Success s (.hmacUpdate f)
        { noEffect s with HM := { s.HM with inner := updateInstance s.HM.inner (s.din.take f.dlen) } }
  | hmacUpdateAbsent {f : Fields} (hp : s.HM.inner.phase = .absorbing) (h : f.ibp = false) (hd : f.dlen = 0) :
      Success s (.hmacUpdate f) (noEffect s)
  | hmacFinal {f : Fields} (hp : s.HM.inner.phase = .absorbing) (h : f.obp = true) :
      Success s (.hmacFinal f)
        { noEffect s with HM := (hmacFinalInstance s.HM).2, out := (hmacFinalInstance s.HM).1 }
  | hmac {f : Fields} {m : Mode} (hk : f.kbp = true) (h : modeOfTag f.mode = some m) (hi : f.ibp = true)
      (ho : f.obp = true) :
      Success s (.hmac f)
        { noEffect s with
          out := (hmacFinalInstance
            { hmacInitInstance m (s.kin.take f.klen) with
              inner := updateInstance (hmacInitInstance m (s.kin.take f.klen)).inner (s.din.take f.dlen) }).1 }
  | hmacAbsent {f : Fields} {m : Mode} (hk : f.kbp = true) (h : modeOfTag f.mode = some m) (hi : f.ibp = false)
      (hd : f.dlen = 0) (ho : f.obp = true) :
      Success s (.hmac f)
        { noEffect s with out := (hmacFinalInstance (hmacInitInstance m (s.kin.take f.klen))).1 }

theorem effectOf_ok {i : Instr} {s : State} {e : Effect} (h : effectOf i s = .ok e) : Success s i e := by
  cases i with
  | spongeInit f =>
    simp only [effectOf, spongeInitEffect_eq] at h
    split at h <;> cases h
    exact .spongeInit ‹_›
  | spongeUpdate f =>
    simp only [effectOf, spongeUpdateEffect_eq, dataOperand] at h
    by_cases hp : s.S.phase = .absorbing
    · cases hi : f.ibp
      · by_cases hd : f.dlen = 0
        · simp [hi, hd, checkedUpdate_none hp] at h
          exact h ▸ .spongeUpdateAbsent hp hi hd
        · simp [hi, hd, checkedUpdate_none hp] at h
      · simp [hi, checkedUpdate_some hp] at h
        exact h ▸ .spongeUpdate hp hi
    · simp [checkedUpdate_of_not_absorbing hp] at h
  | spongeFinal f =>
    simp only [effectOf, spongeFinalEffect_eq] at h
    split at h
    · cases h
    · split at h <;> cases h
      exact .spongeFinal (by simp_all) (by simp_all)
  | hash f =>
    simp only [effectOf, hashEffect_eq] at h
    split at h
    · cases h
    · split at h <;> cases h
      exact .hash (by simp_all) (by simp_all) ‹_›
  | hmacInit f =>
    simp only [effectOf, hmacInitEffect_eq] at h
    split at h
    · cases h
    · split at h <;> cases h
      exact .hmacInit (by simp_all) ‹_›
  | hmacUpdate f =>
    simp only [effectOf, hmacUpdateEffect_eq, dataOperand] at h
    by_cases hp : s.HM.inner.phase = .absorbing
    · cases hi : f.ibp
      · by_cases hd : f.dlen = 0
        · simp [hi, hd, checkedUpdate_none hp] at h
          exact h ▸ .hmacUpdateAbsent hp hi hd
        · simp [hi, hd, checkedUpdate_none hp] at h
      · simp [hi, checkedUpdate_some hp] at h
        exact h ▸ .hmacUpdate hp hi
    · simp [checkedUpdate_of_not_absorbing hp] at h
  | hmacFinal f =>
    simp only [effectOf, hmacFinalEffect_eq] at h
    split at h
    · cases h
    · split at h <;> cases h
      exact .hmacFinal (by simp_all) (by simp_all)
  | hmac f =>
    simp only [effectOf, hmacEffect_eq] at h
    split at h
    · cases h
    · split at h
      · cases h
      · split at h
        · cases h
        · split at h
          · cases h
          · cases h
            rename_i hk _ m hm hn ho
            simp only [Bool.not_eq_false] at hk ho
            cases hi : f.ibp
            · simp only [Bool.false_eq_true, if_false]
              exact .hmacAbsent hk hm hi (by simpa [hi] using hn) ho
            · simp only [if_true]
              exact .hmac hk hm hi ho

/-- An error of a command's checks is the status its row of 60_exceptions.md R147 gives. -/
theorem effectOf_error {i : Instr} {s : State} {st : Status} (h : effectOf i s = .error st) :
    statusOf i s = st ∧ st ≠ .ok := by
  have mode_le {n : Nat} (hn : modeOfTag n ≠ none) : ¬ 3 < n := fun k => hn ((modeOfTag_eq_none_iff n).2 k)
  cases i with
  | spongeInit f =>
    simp only [effectOf, spongeInitEffect_eq] at h
    split at h <;> cases h
    simp [statusOf, checksOf, firstFailing, (modeOfTag_eq_none_iff _).1 ‹_›]
  | spongeUpdate f =>
    simp only [effectOf, spongeUpdateEffect_eq, dataOperand] at h
    by_cases hp : s.S.phase = .absorbing
    · cases hi : f.ibp
      · by_cases hd : f.dlen = 0 <;> simp [hi, hd, checkedUpdate_none hp] at h
        subst h
        simp [statusOf, checksOf, firstFailing, hp, hi, Nat.pos_of_ne_zero hd]
      · simp [hi, checkedUpdate_some hp] at h
    · simp [checkedUpdate_of_not_absorbing hp] at h
      subst h
      simp [statusOf, checksOf, firstFailing, hp]
  | spongeFinal f =>
    simp only [effectOf, spongeFinalEffect_eq] at h
    split at h
    · cases h
      simp_all [statusOf, checksOf, firstFailing]
    · split at h <;> cases h
      simp_all [statusOf, checksOf, firstFailing]
  | hash f =>
    simp only [effectOf, hashEffect_eq] at h
    split at h
    · cases h
      simp_all [statusOf, checksOf, firstFailing]
    · split at h <;> cases h
      have := (modeOfTag_eq_none_iff f.mode).1 ‹_›
      simp_all [statusOf, checksOf, firstFailing]
  | hmacInit f =>
    simp only [effectOf, hmacInitEffect_eq] at h
    split at h
    · cases h
      simp_all [statusOf, checksOf, firstFailing]
    · split at h <;> cases h
      have := (modeOfTag_eq_none_iff f.mode).1 ‹_›
      simp_all [statusOf, checksOf, firstFailing]
  | hmacUpdate f =>
    simp only [effectOf, hmacUpdateEffect_eq, dataOperand] at h
    by_cases hp : s.HM.inner.phase = .absorbing
    · cases hi : f.ibp
      · by_cases hd : f.dlen = 0 <;> simp [hi, hd, checkedUpdate_none hp] at h
        subst h
        simp [statusOf, checksOf, firstFailing, hp, hi, Nat.pos_of_ne_zero hd]
      · simp [hi, checkedUpdate_some hp] at h
    · simp [checkedUpdate_of_not_absorbing hp] at h
      subst h
      simp [statusOf, checksOf, firstFailing, hp]
  | hmacFinal f =>
    simp only [effectOf, hmacFinalEffect_eq] at h
    split at h
    · cases h
      simp_all [statusOf, checksOf, firstFailing]
    · split at h <;> cases h
      simp_all [statusOf, checksOf, firstFailing]
  | hmac f =>
    simp only [effectOf, hmacEffect_eq] at h
    split at h
    · cases h
      simp_all [statusOf, checksOf, firstFailing]
    · rename_i hk
      simp only [Bool.not_eq_false] at hk
      split at h
      · cases h
        have := (modeOfTag_eq_none_iff f.mode).1 ‹_›
        simp_all [statusOf, checksOf, firstFailing]
      · rename_i m hm
        have hle := mode_le (n := f.mode) (by simp [hm])
        split at h
        · cases h
          rename_i hn
          simp [statusOf, checksOf, firstFailing, hk, hle, hn.1, Nat.pos_of_ne_zero hn.2]
        · rename_i hn
          split at h <;> cases h
          rename_i ho
          have hn' : ¬ (f.ibp = false ∧ 0 < f.dlen) := fun k => hn ⟨k.1, Nat.pos_iff_ne_zero.1 k.2⟩
          simp [statusOf, checksOf, firstFailing, hk, hle, ho, hn']

/-- A command whose checks pass has status `OK` in its row of R147. -/
theorem statusOf_of_success {i : Instr} {s : State} {e : Effect} (h : Success s i e) : statusOf i s = .ok := by
  have mode_le {n : Nat} {m : Mode} (hn : modeOfTag n = some m) : ¬ 3 < n := fun k => by
    simp [(modeOfTag_eq_none_iff n).2 k] at hn
  cases h with
  | spongeInit h => simp [statusOf, checksOf, firstFailing, mode_le h]
  | spongeUpdate hp h => simp [statusOf, checksOf, firstFailing, hp, h]
  | spongeUpdateAbsent hp h hd => simp [statusOf, checksOf, firstFailing, hp, hd]
  | spongeFinal hp h => simp [statusOf, checksOf, firstFailing, hp, h]
  | hash hi ho h => simp [statusOf, checksOf, firstFailing, hi, ho, mode_le h]
  | hmacInit hk h => simp [statusOf, checksOf, firstFailing, hk, mode_le h]
  | hmacUpdate hp h => simp [statusOf, checksOf, firstFailing, hp, h]
  | hmacUpdateAbsent hp h hd => simp [statusOf, checksOf, firstFailing, hp, hd]
  | hmacFinal hp h => simp [statusOf, checksOf, firstFailing, hp, h]
  | hmac hk h hi ho => simp [statusOf, checksOf, firstFailing, hk, mode_le h, hi, ho]
  | hmacAbsent hk h hi hd ho => simp [statusOf, checksOf, firstFailing, hk, mode_le h, hd, ho]

/-- Everything `exec` can do: wait, end with the status of a failed check, or succeed. -/
theorem exec_cases {i : Instr} {s t : State} (h : exec i s = .next t) :
    t = s ∨
    (PayloadThere i.fields s ∧ statusOf i s ≠ .ok ∧ t = afterFailure i.fields s (statusOf i s)) ∨
    (∃ e, PayloadThere i.fields s ∧ Success s i e ∧ (e.out = [] ∨ s.outReady = true) ∧
      t = afterCommand i.fields s e.S e.HM e.out .ok) := by
  rw [exec_eq_runCommand] at h
  obtain ht | ⟨st, he, hp, ht⟩ | ⟨e, he, hp, ho, ht⟩ := runCommand_cases h
  · exact .inl ht
  · obtain ⟨hs, hne⟩ := effectOf_error he
    exact .inr (.inl ⟨hp, hs ▸ hne, hs ▸ ht⟩)
  · exact .inr (.inr ⟨e, hp, effectOf_ok he, ho, ht⟩)

end Sys2Proof.Laws
end

