-- ==== Sys2Proof/Laws/Engine.lean ====
section
/-! SUPPORT. What the engines' operations give: lengths, the rest an update leaves pending, and the order a finalized instance is
left in. -/

namespace Sys2Proof.Machine

theorem stateBytes_length (A : Lanes) (n : Nat) : (stateBytes A n).length = n := by simp [stateBytes]

theorem padBlock_length {p : List Byte} {bs : Nat} (h : p.length < bs) : (padBlock p bs).length = bs := by
  unfold padBlock
  simp only
  split <;> simp <;> omega

theorem absorbWhile_zero (bs : Nat) (A : Lanes) (buf : List Byte) : absorbWhile bs 0 A buf = (A, buf) := rfl

theorem absorbWhile_of_lt {bs : Nat} {buf : List Byte} (h : buf.length < bs) (n : Nat) (A : Lanes) :
    absorbWhile bs n A buf = (A, buf) := by
  cases n with
  | zero => rfl
  | succ n => simp [absorbWhile, Nat.not_le.2 h]

theorem absorbWhile_of_le {bs : Nat} {buf : List Byte} (h : bs ≤ buf.length) (n : Nat) (A : Lanes) :
    absorbWhile bs (n + 1) A buf = absorbWhile bs n (absorbBlock A (buf.take bs)) (buf.drop bs) := by
  simp [absorbWhile, h]

/-- Enough turns leave less than a block. -/
theorem absorbWhile_rest_lt {bs : Nat} (hbs : 0 < bs) :
    ∀ (n : Nat) (A : Lanes) (buf : List Byte), buf.length ≤ n → (absorbWhile bs n A buf).2.length < bs
  | 0, A, buf, h => by simp [absorbWhile_zero]; omega
  | n + 1, A, buf, h => by
    by_cases hb : bs ≤ buf.length
    · rw [absorbWhile_of_le hb]
      exact absorbWhile_rest_lt hbs n _ _ (by simp; omega)
    · rw [absorbWhile_of_lt (by omega)]
      simpa using hb

theorem updateInstance_pending_lt {X : Sponge} (h : 0 < X.blockSize) (d : List Byte) :
    (updateInstance X d).pending.length < X.blockSize :=
  absorbWhile_rest_lt h _ _ _ (Nat.le_refl _)

/-- The bytes a finalize emits, while a digest fits a block. -/
theorem squeeze_of_le {X : Sponge} (h : X.digestLength ≤ X.blockSize) :
    squeeze X = (stateBytes X.A X.digestLength, X.A) := by
  simp [squeeze, squeezeLoop, Nat.min_eq_left h]

theorem finalizeInstance_eq {X : Sponge} (h : X.digestLength ≤ X.blockSize) :
    finalizeInstance X =
      (stateBytes (absorbBlock X.A (padBlock X.pending X.blockSize)) X.digestLength,
        { X with
          A := absorbBlock X.A (padBlock X.pending X.blockSize)
          pending := []
          pendingLen := 0
          phase := .squeezed }) := by
  simp only [finalizeInstance]
  rw [squeeze_of_le (by simpa using h)]

theorem modeFieldsAgree_digest_le {X : Sponge} (h : modeFieldsAgree X) : X.digestLength ≤ X.blockSize := by
  obtain ⟨-, -, hd, hb⟩ := h
  rw [hd, hb]
  exact Nat.le_of_lt (modeDigestLength_lt_blockSize _)

theorem modeFieldsAgree_blockSize_pos {X : Sponge} (h : modeFieldsAgree X) : 0 < X.blockSize := by
  rw [h.2.2.2]
  exact modeBlockSize_pos _

theorem initInstance_fields (m : Mode) : modeFieldsAgree (initInstance m) := ⟨rfl, rfl, rfl, rfl⟩

theorem hashOf_length (m : Mode) (M : List Byte) : (hashOf m M).length = modeDigestLength m := by
  unfold hashOf
  rw [finalizeInstance_eq (Nat.le_of_lt (by simpa using modeDigestLength_lt_blockSize m))]
  simp [stateBytes_length]

theorem keyBlock_length (m : Mode) (key : List Byte) : (keyBlock m key).length = modeBlockSize m := by
  have := modeDigestLength_lt_blockSize m
  unfold keyBlock
  simp only
  split
  · simp [hashOf_length]; omega
  · simp; omega

theorem padOf_getElem (c : Byte) (kb : List Byte) (j : Fin 144) :
    (padOf c kb)[j] = if h : j.val < kb.length then kb[j.val] ^^^ c else 0 := by
  simp [padOf]

theorem zeroPad_getElem (j : Fin 144) : zeroPad[j] = 0 := by simp [zeroPad]

/-- The `ipad` bytes that `HmacInit` absorbs are the key block XOR the constant. -/
theorem padBytes_padOf (c : Byte) (kb : List Byte) (h : kb.length ≤ 144) :
    padBytes (padOf c kb) kb.length = kb.map (· ^^^ c) := by
  apply List.ext_getElem
  · simp [padBytes, h]
  · intro k h1 h2
    have hk : k < kb.length := by simpa using h2
    simp [padBytes, padOf, hk]

theorem lanes_ext {A B : Lanes} (h : ∀ i : Fin 25, A[i] = B[i]) : A = B := by
  apply Vector.ext
  intro i hi
  exact h ⟨i, hi⟩

theorem xorBlock_getElem (A : Lanes) (blk : List Byte) (i : Fin 25) :
    (xorBlock A blk)[i] = A[i] ^^^ le64 ((blk.drop (8 * i.val)).take 8) := by
  simp [xorBlock]

end Sys2Proof.Machine
end

