-- ==== Sys2Proof/Laws/Invariant.lean ====
section
/-! SUPPORT. That each operation on an instance keeps the invariant of Safety.lean. -/

namespace Sys2Proof.Machine

theorem initInstance_inv (m : Mode) : SpongeInv (initInstance m) where
  pendingLen_eq := rfl
  fields _ := initInstance_fields m
  pending_lt _ := modeBlockSize_pos m
  squeezed_empty h := by simp at h

theorem updateInstance_inv {X : Sponge} (h : SpongeInv X) (d : List Byte) (hp : X.phase = .absorbing) :
    SpongeInv (updateInstance X d) where
  pendingLen_eq := rfl
  fields _ := h.fields (by simp [hp])
  pending_lt _ := updateInstance_pending_lt (modeFieldsAgree_blockSize_pos (h.fields (by simp [hp]))) d
  squeezed_empty hs := by simp [hp] at hs

theorem finalizeInstance_inv {X : Sponge} (h : SpongeInv X) (hp : X.phase = .absorbing) :
    SpongeInv (finalizeInstance X).2 where
  pendingLen_eq := rfl
  fields _ := h.fields (by simp [hp])
  pending_lt _ := modeFieldsAgree_blockSize_pos (h.fields (by simp [hp]))
  squeezed_empty _ := rfl

theorem resetSponge_inv (n : Nat) (x : Context) : SpongeInv (State.resetSponge n x) where
  pendingLen_eq := resetSponge_pendingLen n x
  fields h := by simp at h
  pending_lt h := by simp at h
  squeezed_empty h := by simp at h

theorem hmacInitInstance_inv (m : Mode) (key : List Byte) : HmacInv (hmacInitInstance m key) where
  inner := updateInstance_inv (initInstance_inv m) _ rfl
  mode_eq _ := rfl
  blockSize_eq _ := rfl
  tails_zero _ j hj := by
    have hk := keyBlock_length m key
    simp only [hmacInitInstance_blockSize] at hj
    simp only [hmacInitInstance_ipad, hmacInitInstance_opad, padOf_getElem, hk]
    simp [Nat.not_lt.2 hj]
  pads_of_key _ j hj := by
    have hk := keyBlock_length m key
    simp only [hmacInitInstance_blockSize] at hj
    simp only [hmacInitInstance_ipad, hmacInitInstance_opad, padOf_getElem, hk, hj, dite_true]
    generalize (keyBlock m key)[j.val] = b
    revert b
    decide
  pads_zeroed h := by simp [hmacInitInstance_inner] at h

theorem hmacInner_inv {Y : Hmac} (h : HmacInv Y) (d : List Byte) (hp : Y.inner.phase = .absorbing) :
    HmacInv { Y with inner := updateInstance Y.inner d } where
  inner := updateInstance_inv h.inner d hp
  mode_eq _ := h.mode_eq (by simp [hp])
  blockSize_eq _ := h.blockSize_eq (by simp [hp])
  tails_zero _ := h.tails_zero (by simp [hp])
  pads_of_key _ := h.pads_of_key hp
  pads_zeroed hs := by simp [hp] at hs

theorem hmacFinalInstance_inv {Y : Hmac} (h : HmacInv Y) (hp : Y.inner.phase = .absorbing) :
    HmacInv (hmacFinalInstance Y).2 where
  inner := finalizeInstance_inv h.inner hp
  mode_eq _ := h.mode_eq (by simp [hp])
  blockSize_eq _ := h.blockSize_eq (by simp [hp])
  tails_zero _ j _ := ⟨zeroPad_getElem j, zeroPad_getElem j⟩
  pads_of_key hs := by simp at hs
  pads_zeroed _ j := ⟨zeroPad_getElem j, zeroPad_getElem j⟩

theorem resetHmac_inv (n : Nat) : HmacInv (State.resetHmac n) where
  inner := resetSponge_inv n .inner
  mode_eq h := by simp at h
  blockSize_eq h := by simp at h
  tails_zero h := by simp at h
  pads_of_key h := by simp at h
  pads_zeroed h := by simp at h

end Sys2Proof.Machine
end

