-- ==== Sys2Proof/Laws/PerInstr.lean ====
section
/-! SUPPORT. The lemma families over the constructors of `Instr`. Family OpcodeField: whatever its operand fields, a command's
word carries the command's opcode in `OP` (30_encoding.md R50, R52). -/

namespace Sys2Proof.Laws.OpcodeField

def Statement (i : Instr) : Prop := bitField (encode i) 0 4 = i.opcode

/-- The low four bits of a word are those of the first summand. -/
theorem low_bits_of_sum (op a b c d e g : Nat) (h : op < 16) :
    bitField (BitVec.ofNat 64 (op + 2 ^ 4 * a + 2 ^ 8 * b + 2 ^ 9 * c + 2 ^ 10 * d + 2 ^ 16 * e + 2 ^ 40 * g)) 0 4 = op := by
  simp only [bitField, BitVec.toNat_ofNat]
  omega

theorem opcode_lt (i : Instr) : i.opcode < 16 := by cases i <;> simp [Instr.opcode]

theorem spongeInit (f : Fields) : Statement (.spongeInit f) := low_bits_of_sum _ _ _ _ _ _ _ (opcode_lt _)
theorem spongeUpdate (f : Fields) : Statement (.spongeUpdate f) := low_bits_of_sum _ _ _ _ _ _ _ (opcode_lt _)
theorem spongeFinal (f : Fields) : Statement (.spongeFinal f) := low_bits_of_sum _ _ _ _ _ _ _ (opcode_lt _)
theorem hash (f : Fields) : Statement (.hash f) := low_bits_of_sum _ _ _ _ _ _ _ (opcode_lt _)
theorem hmacInit (f : Fields) : Statement (.hmacInit f) := low_bits_of_sum _ _ _ _ _ _ _ (opcode_lt _)
theorem hmacUpdate (f : Fields) : Statement (.hmacUpdate f) := low_bits_of_sum _ _ _ _ _ _ _ (opcode_lt _)
theorem hmacFinal (f : Fields) : Statement (.hmacFinal f) := low_bits_of_sum _ _ _ _ _ _ _ (opcode_lt _)
theorem hmac (f : Fields) : Statement (.hmac f) := low_bits_of_sum _ _ _ _ _ _ _ (opcode_lt _)

end Sys2Proof.Laws.OpcodeField
end

