-- ==== Sys2Proof/Laws/Step.lean ====
section
/-! SUPPORT. Everything one step can do. -/

namespace Sys2Proof.Laws

open Sys2Proof.Machine

/-- A legal word's command has the word's own fields. -/
theorem decode_fields {w : CmdWord} {i : Instr} (h : decode w = .ok i) : i.fields = fieldsOf w := by
  unfold decode at h
  split at h
  · cases h
  · rename_i j hj
    split at h <;> cases h
    unfold instrOf at hj
    split at hj <;> first | (cases hj; rfl) | cases hj

/-- An illegal word waits for its payload or is answered. -/
theorem illegalCommand_cases {w : CmdWord} {s t : State} (h : illegalCommand w s = .next t) :
    t = s ∨ (PayloadThere (fieldsOf w) s ∧ t = afterFailure (fieldsOf w) s .illegalCommand) := by
  obtain ht | ⟨st, he, hp, ht⟩ | ⟨e, he, -⟩ := runCommand_cases h
  · exact .inl ht
  · cases he
    exact .inr ⟨hp, ht⟩
  · cases he

theorem step_of_rst {s : State} (h : s.rst = true) : step s = .next (State.afterReset (s.resets + 1) s.outReady) := by
  simp [step, h, takeReset]

/-- Everything one step can do: take a reset, wait for a word, run the decoded command, or answer an illegal word. -/
theorem step_cases {s t : State} (h : step s = .next t) :
    (s.rst = true ∧ t = State.afterReset (s.resets + 1) s.outReady) ∨
    (s.rst = false ∧ s.cmd = [] ∧ t = s) ∨
    (∃ w rest i, s.rst = false ∧ s.cmd = w :: rest ∧ decode w = .ok i ∧ exec i s = .next t) ∨
    (∃ w rest r, s.rst = false ∧ s.cmd = w :: rest ∧ decode w = .error r ∧ illegalCommand w s = .next t) := by
  cases hr : s.rst
  · cases hc : s.cmd with
    | nil =>
      simp only [step, hr, nextWord, hc, List.head?_nil, waitForHost, Bool.false_eq_true, if_false,
        Host.Outcome.next.injEq] at h
      exact .inr (.inl ⟨rfl, rfl, h.symm⟩)
    | cons w rest =>
      simp only [step, hr, nextWord, hc, List.head?_cons, Bool.false_eq_true, if_false] at h
      cases hd : decode w with
      | ok i =>
        simp only [hd] at h
        exact .inr (.inr (.inl ⟨w, rest, i, rfl, rfl, hd, h⟩))
      | error r =>
        simp only [hd] at h
        exact .inr (.inr (.inr ⟨w, rest, r, rfl, rfl, hd, h⟩))
  · rw [step_of_rst hr, Host.Outcome.next.injEq] at h
    exact .inl ⟨rfl, h.symm⟩

theorem afterReset_inv (n : Nat) (r : Bool) : Inv (State.afterReset n r) := ⟨resetSponge_inv n .S, resetHmac_inv n⟩

end Sys2Proof.Laws
end

