-- ==== Sys2Proof/Tests/Slice0.lean ====
section
/-! SUPPORT. Small tests, their expected results from the spec's own words and tables (95_test_vectors.md), and a witness for every
statement of the obligations file that has hypotheses. -/

namespace Sys2Proof.Tests

open Sys2Proof.Machine Sys2Proof.Laws

/-! ## Helpers -/

/-- The operand fields of a command word. -/
def fields (mode : Nat) (ibp obp kbp : Bool) (dlen klen : Nat) : Fields := { mode, ibp, obp, kbp, dlen, klen }

/-- The machine after reset with a payload on the channels. -/
def fresh (din kin : List Byte) : State := { State.reset with din := din, kin := kin }

/-- Both contexts absorbing, SHA3-256, nothing absorbed but the pad of the empty key. -/
def absorbing (din : List Byte) : State :=
  { State.reset with S := initInstance .sha3_256, HM := hmacInitInstance .sha3_256 [], din := din }

/-- Both contexts after FINAL. -/
def squeezed : State :=
  { State.reset with
    S := (finalizeInstance (initInstance .sha3_256)).2
    HM := (hmacFinalInstance (hmacInitInstance .sha3_256 [])).2 }

/-- `s` with `w` as its only command word. -/
def offering (w : CmdWord) (s : State) : State := { s with cmd := [w] }

/-- The state an outcome answers. -/
def nextOf (o : Host.Outcome State Fault Refusal) : Option State :=
  match o with
  | .next t => some t
  | _ => none

/-- The responses, the bytes on `DOUT` and the bytes left on `DIN` and `KIN` after an outcome. -/
def seen (o : Host.Outcome State Fault Refusal) : Option (List Status × List Byte × List Byte × List Byte) :=
  (nextOf o).map fun t => (t.resp, t.dout, t.din, t.kin)

/-- "abc". -/
def abc : List Byte := [0x61, 0x62, 0x63]

/-- "key". -/
def key3 : List Byte := [0x6B, 0x65, 0x79]

/-- The state with one lane set, all others zero. -/
def oneLane (i : Fin 25) (v : Lane) : Lanes := (Vector.replicate 25 0).set i v

/-! ## Well-formedness: one ill-formed term for each check -/

theorem test_wellFormed_largest : (Instr.hmac (fields 15 true true true (2 ^ 24 - 1) (2 ^ 24 - 1))).wellFormed = true := by decide
theorem test_illFormed_mode : (Instr.spongeInit (fields 16 false false false 0 0)).wellFormed = false := by decide
theorem test_illFormed_dlen : (Instr.hash (fields 0 true true false (2 ^ 24) 0)).wellFormed = false := by decide
theorem test_illFormed_klen : (Instr.hmacInit (fields 0 false false true 0 (2 ^ 24))).wellFormed = false := by decide

/-! ## Decoding and encoding: the words of 95_test_vectors.md section 3.6 -/

theorem test_decode_spongeInit : decode 0x0000070000050711 = .ok (.spongeInit (fields 1 true true true 5 7)) := by rfl
theorem test_decode_spongeUpdate : decode 0x0000000000050002 = .ok (.spongeUpdate (fields 0 false false false 5 0)) := by rfl
theorem test_decode_spongeFinal : decode 0x0000000000000203 = .ok (.spongeFinal (fields 0 false true false 0 0)) := by rfl
theorem test_decode_hash : decode 0x0000000000470334 = .ok (.hash (fields 3 true true false 71 0)) := by rfl
theorem test_decode_hmacInit : decode 0x0000030000000415 = .ok (.hmacInit (fields 1 false false true 0 3)) := by rfl
theorem test_decode_hmacUpdate : decode 0x00000000002B0106 = .ok (.hmacUpdate (fields 0 true false false 43 0)) := by rfl
theorem test_decode_hmacFinal : decode 0x0000000000000207 = .ok (.hmacFinal (fields 0 false true false 0 0)) := by rfl
theorem test_decode_hmac : decode 0x0000030000050498 = .ok (.hmac (fields 9 false false true 5 3)) := by rfl
theorem test_decode_zero_word : decode 0 = .error (.reservedOpcode 0) := by rfl
theorem test_decode_opcode_9 : decode 0x0000000000000009 = .error (.reservedOpcode 9) := by rfl
theorem test_decode_reserved_bit : decode 0x0000000000000811 = .error (.reservedBits 1) := by rfl

/-- Byte 0 of the word is bits [7:0] (30_encoding.md R50): the bytes of `0x0000000000470334`. -/
theorem test_decodeBytes :
    decodeBytes [0x34, 0x03, 0x47, 0, 0, 0, 0, 0, 0xAA] = .ok (.hash (fields 3 true true false 71 0), [0xAA]) := by rfl

theorem test_decodeBytes_short : decodeBytes [0x34, 0x03] = .error .truncated := by rfl
theorem test_encode : encode (.hmac (fields 1 true true true 43 137)) = 0x00008900002B0718 := by decide

/-! ## The permutation engine: 95_test_vectors.md sections 2.1 to 2.3 -/

/-- A bit in column 2 reaches column 3 unrotated and column 1 rotated by one, bit 63 to bit 0. -/
theorem test_theta : (theta (oneLane 7 0x8000000000000000)).toList =
    [0, 1, 0, 0x8000000000000000, 0, 0, 1, 0x8000000000000000, 0x8000000000000000, 0, 0, 1, 0, 0x8000000000000000, 0,
     0, 1, 0, 0x8000000000000000, 0, 0, 1, 0, 0x8000000000000000, 0] := by decide +kernel

theorem test_rho : (rho (Vector.replicate 25 0x1D1D1D1D1D1D1D1D))[2] = 0x4747474747474747 := by decide +kernel

theorem test_pi : ((pi (Vector.ofFn fun i => BitVec.ofNat 64 i.val)).toList.map BitVec.toNat) =
    [0, 6, 12, 18, 24, 3, 9, 10, 16, 22, 1, 7, 13, 19, 20, 4, 5, 11, 17, 23, 2, 8, 14, 15, 21] := by decide +kernel

theorem test_chi :
    (chi (((oneLane 0 0xFF00FF00FF00FF00).set 1 0x0F0F0F0F0F0F0F0F).set 2 0x3333333333333333)).toList.take 5 =
      [0xCF30CF30CF30CF30, 0x0F0F0F0F0F0F0F0F, 0x3333333333333333, 0xFF00FF00FF00FF00, 0x000F000F000F000F] := by
  decide +kernel

theorem test_iota : iota (oneLane 5 7) 23 = (oneLane 5 7).set 0 0x8000000080008008 := by decide +kernel

/-- Round 0 on the state `T0` (section 2.2): its first row. -/
theorem test_round :
    (keccakRound (Vector.ofFn fun i => BitVec.ofNat 64 ((i.val + 1) * 0x0101010101010101)) 0).toList.take 5 =
      [0x0808080808080809, 0xC1C1C1C1C1C1C1C1, 0x1818181818181818, 0x5151515151515151, 0x4040404040404040] := by
  decide +kernel

/-! ## Absorbing and padding: 95_test_vectors.md section 3.1 -/

theorem test_pad_merged : xorBlock (Vector.replicate 25 0) (padBlock (List.replicate 71 0xA3) 72) =
    ((Vector.replicate 25 0).set 8 0x86A3A3A3A3A3A3A3 |>.set 0 0xA3A3A3A3A3A3A3A3 |>.set 1 0xA3A3A3A3A3A3A3A3
      |>.set 2 0xA3A3A3A3A3A3A3A3 |>.set 3 0xA3A3A3A3A3A3A3A3 |>.set 4 0xA3A3A3A3A3A3A3A3 |>.set 5 0xA3A3A3A3A3A3A3A3
      |>.set 6 0xA3A3A3A3A3A3A3A3 |>.set 7 0xA3A3A3A3A3A3A3A3) := by decide +kernel

theorem test_pad_abc : xorBlock (Vector.replicate 25 0) (padBlock abc 136) =
    (oneLane 0 0x0000000006636261).set 16 0x8000000000000000 := by decide +kernel

/-! ## The commands: 95_test_vectors.md sections 3.3 to 3.5 and the examples of the rules -/

/-- The ignored payload of `0x0000070000050711` is taken: 5 `DIN` and 7 `KIN` bytes (30_encoding.md R57). -/
theorem test_spongeInit_takes_ignored_payload :
    seen (step (offering 0x0000070000050711 (fresh [1, 2, 3, 4, 5, 6] [1, 2, 3, 4, 5, 6, 7, 8]))) = some ([.ok], [], [6], [8]) := by
  decide +kernel

theorem test_spongeInit_tag_4 : seen (step (offering 0x0000000000000041 (fresh [] []))) = some ([.invalidMode], [], [], []) := by
  decide +kernel

theorem test_spongeUpdate_pending :
    (nextOf (step (offering 0x0000000000030102 (absorbing abc)))).map (fun t => (t.S.pending, t.S.pendingLen, t.S.phase, t.resp)) =
      some (abc, 3, .absorbing, [.ok]) := by
  decide +kernel

theorem test_spongeUpdate_absent_with_length : seen (step (offering 0x0000000000050002 (absorbing []))) =
    some ([.nullInput], [], [], []) := by
  decide +kernel

theorem test_spongeFinal_state_check_first : seen (step (offering 0x0000000000000003 (fresh [] []))) =
    some ([.invalidState], [], [], []) := by
  decide +kernel

theorem test_spongeFinal_output_absent :
    (nextOf (step (offering 0x0000000000000003 (absorbing [])))).map (fun t => (t.S.phase, t.dout, t.resp)) =
      some (.absorbing, [], [.nullOutput]) := by
  decide +kernel

theorem test_hash_argument_check_first : seen (step (offering 0x0000000000000294 (fresh [] []))) =
    some ([.invalidArgument], [], [], []) := by
  decide +kernel

/-- The digest of the empty message, SHA3-256 (section 3.1; 41_sponge.md R103). -/
theorem test_hash_empty : seen (step (offering 0x0000000000000314 (fresh [] []))) =
    some ([.ok],
      [0xA7, 0xFF, 0xC6, 0xF8, 0xBF, 0x1E, 0xD7, 0x66, 0x51, 0xC1, 0x47, 0x56, 0xA0, 0x61, 0xD6, 0x62,
       0xF5, 0x80, 0xFF, 0x4D, 0xE4, 0x3B, 0x49, 0xFA, 0x82, 0xD8, 0x0A, 0x4B, 0x80, 0xF8, 0x43, 0x4A], [], []) := by
  decide +kernel

theorem test_hmacInit_key_absent : seen (step (offering 0x0000030000000015 (fresh [] []))) =
    some ([.invalidArgument], [], [], []) := by
  decide +kernel

/-- The pads of the key "key" (42_hmac.md R121, R122). -/
theorem test_hmacInit_pads :
    (nextOf (step (offering 0x0000030000000415 (fresh [] key3)))).map
      (fun t => (t.HM.ipad.toList.take 5, t.HM.opad.toList.take 5, t.HM.opad[136], t.kin, t.resp)) =
      some ([0x5D, 0x53, 0x4F, 0x36, 0x36], [0x37, 0x39, 0x25, 0x5C, 0x5C], 0, [], [.ok]) := by
  decide +kernel

theorem test_hmacUpdate_before_init : seen (step (offering 0x0000000000030106 (fresh abc []))) =
    some ([.invalidState], [], [], []) := by
  decide +kernel

theorem test_hmacUpdate_absent_with_length :
    seen (exec (.hmacUpdate (fields 0 false false false 1 0)) (absorbing [])) = some ([.nullInput], [], [], []) := by
  decide +kernel

theorem test_hmacFinal_output_absent :
    (nextOf (step (offering 0x0000000000000007 (absorbing [])))).map (fun t => (t.HM.inner.phase, t.HM.opad[0], t.resp)) =
      some (.absorbing, 0x5C, [.invalidArgument]) := by
  decide +kernel

theorem test_hmacFinal_twice : seen (step (offering 0x0000000000000007 squeezed)) = some ([.invalidState], [], [], []) := by
  decide +kernel

theorem test_hmac_mode_before_input : seen (step (offering 0x0000030000050498 (fresh [] key3))) =
    some ([.invalidMode], [], [], []) := by
  decide +kernel

theorem test_hmac_input_absent_with_length :
    seen (exec (.hmac (fields 1 false true true 5 3)) (fresh [] key3)) = some ([.nullInput], [], [], []) := by
  decide +kernel

/-- The illegal word `0x000000000004010F` takes its 4 `DIN` bytes. -/
theorem test_illegal_takes_payload : seen (step (offering 0x000000000004010F (fresh [1, 2, 3, 4, 5] []))) =
    some ([.illegalCommand], [], [5], []) := by
  decide +kernel

/-- `withFetchWord` makes the next step run the word, the payload it announces being there. -/
theorem test_withFetchWord : seen (step (State.reset.withFetchWord 64 0x0000000000030104)) =
    some ([.invalidArgument], [], [], []) := by
  decide +kernel

/-! ## Witnesses: states and operands that meet the hypotheses of the statements -/

theorem fresh_inv (d k : List Byte) : Inv (fresh d k) := ⟨resetSponge_inv 0 .S, resetHmac_inv 0⟩

theorem absorbing_inv (d : List Byte) : Inv (absorbing d) := ⟨initInstance_inv _, hmacInitInstance_inv _ _⟩

theorem squeezed_inv : Inv squeezed :=
  ⟨finalizeInstance_inv (initInstance_inv _) rfl, hmacFinalInstance_inv (hmacInitInstance_inv _ _) rfl⟩

/-- A command without payload has it there in every state. -/
theorem no_payload (s : State) (mode : Nat) (obp : Bool) (dlen klen : Nat) :
    PayloadThere (fields mode false obp false dlen klen) s := ⟨fun h => (by cases h), fun h => (by cases h)⟩

theorem witness_DecodeOfEncode : ∃ i : Instr, i.wellFormed = true ∧ i.fields.klen = 2 ^ 24 - 1 :=
  ⟨.hmac (fields 15 true true true (2 ^ 24 - 1) (2 ^ 24 - 1)), by decide, rfl⟩

theorem witness_EncodeOfDecode : ∃ w i, decode w = .ok i := ⟨_, _, test_decode_hmac⟩

theorem witness_EveryWordHasOneVerdict :
    (∃ w : CmdWord, (1 ≤ (w.extractLsb 3 0).toNat ∧ (w.extractLsb 3 0).toNat ≤ 8 ∧ w.extractLsb 15 11 = 0) ∧
      (w.extractLsb 3 0).toNat = 8) ∧
    (∃ w : CmdWord, (w.extractLsb 3 0).toNat = 0) ∧ (∃ w : CmdWord, 9 ≤ (w.extractLsb 3 0).toNat) ∧
    (∃ w : CmdWord, (w.extractLsb 3 0).toNat = 1 ∧ w.extractLsb 15 11 ≠ 0) :=
  ⟨⟨0x00000300002B0718, by decide, by decide⟩, ⟨0, by decide⟩, ⟨0x9, by decide⟩, ⟨0x811, by decide, by decide⟩⟩

theorem witness_StepRunsTheDecodedCommand :
    ∃ (s : State) (w : CmdWord) (rest : List CmdWord) (i : Instr), s.rst = false ∧ s.cmd = w :: rest ∧ decode w = .ok i :=
  ⟨offering 0x0000000000000203 (absorbing []), _, [], _, rfl, rfl, test_decode_spongeFinal⟩

theorem witness_IllegalWordsAreAnswered :
    (∃ (s : State) (w : CmdWord) (rest : List CmdWord), s.rst = false ∧ s.cmd = w :: rest ∧ 9 ≤ (w.extractLsb 3 0).toNat ∧
      PayloadThere (fieldsOf w) s ∧ (fieldsOf w).dlen = 4) ∧
    (∃ (s : State) (w : CmdWord) (rest : List CmdWord), s.rst = false ∧ s.cmd = w :: rest ∧ (w.extractLsb 3 0).toNat = 0 ∧
      PayloadThere (fieldsOf w) s) ∧
    (∃ (s : State) (w : CmdWord) (rest : List CmdWord), s.rst = false ∧ s.cmd = w :: rest ∧ w.extractLsb 15 11 ≠ 0 ∧
      PayloadThere (fieldsOf w) s) :=
  ⟨⟨offering 0x4010F (fresh [1, 2, 3, 4] []), _, [], rfl, rfl, by decide,
      ⟨fun _ => by decide, fun h => by revert h; decide⟩, by decide⟩,
   ⟨offering 0 (fresh [] []), _, [], rfl, rfl, by decide, ⟨fun h => by revert h; decide, fun h => by revert h; decide⟩⟩,
   ⟨offering 0x811 (fresh [] []), _, [], rfl, rfl, by decide, ⟨fun h => by revert h; decide, fun h => by revert h; decide⟩⟩⟩

theorem witness_NoWordNoChange : State.reset.rst = false ∧ State.reset.cmd = [] := ⟨rfl, rfl⟩

theorem witness_ResetEffect : ∃ s : State, s.rst = true ∧ s.S.phase = .absorbing ∧ s.cmd ≠ [] :=
  ⟨{ offering 0x3 (absorbing []) with rst := true }, rfl, rfl, by decide⟩

theorem witness_WaitsForItsPayload :
    (∃ (i : Instr) (s : State), i.fields.ibp = true ∧ s.din.length < i.fields.dlen) ∧
    (∃ (i : Instr) (s : State), i.fields.kbp = true ∧ s.kin.length < i.fields.klen) :=
  ⟨⟨.hash (fields 0 true true false 3 0), fresh [1, 2] [], rfl, by decide⟩,
   ⟨.hmacInit (fields 0 false false true 0 1), fresh [] [], rfl, by decide⟩⟩

theorem witness_WaitsForTheHostToTakeOutput :
    ∃ i s, Inv s ∧ s.outReady = false ∧ statusOf i s = .ok ∧ 0 < outputLength i s :=
  ⟨.spongeFinal (fields 0 false true false 0 0), { absorbing [] with outReady := false },
    ⟨(absorbing_inv []).S, (absorbing_inv []).HM⟩, rfl, rfl, by decide⟩

theorem witness_StepTakesOneCommand : ∃ s t, s.rst = false ∧ step s = .next t ∧ t.resp ≠ s.resp :=
  ⟨offering 0x0000000000000003 (fresh [] []), _, rfl, rfl, by decide⟩

/-- The bounds of `RotationLaws`, `ThetaBitwise`, `RhoRotatesByTheGeneratedOffsets` and `ChiBitwise`, at their ends. -/
theorem witness_lane_bits :
    ∃ m n x y z : Nat, m < 64 ∧ n < 64 ∧ x < 5 ∧ y < 5 ∧ z < 64 ∧ m = 63 ∧ n = 63 ∧ x = 4 ∧ y = 4 ∧ z = 0 :=
  ⟨63, 63, 4, 4, 0, by decide⟩

theorem witness_LaneFormIsByteForm : ∃ blk : List Byte, blk.length ≤ 200 ∧ blk.length = 200 :=
  ⟨List.replicate 200 1, by rw [List.length_replicate]; exact ⟨Nat.le_refl _, rfl⟩⟩

theorem witness_BlockGoesIntoTheRate :
    (∃ (blk : List Byte) (k : Nat), k < 200 ∧ k < blk.length ∧ blk.length = 144 ∧ k = 143) ∧
    (∃ (blk : List Byte) (k : Nat), k < 200 ∧ blk.length ≤ k ∧ blk.length = 144 ∧ k = 144) :=
  ⟨⟨List.replicate 144 1, 143, by simp⟩, ⟨List.replicate 144 1, 144, by simp⟩⟩

theorem witness_UpdateAbsorbsWholeBlocks : 0 < (initInstance .sha3_512).blockSize := by decide

theorem witness_ByteSerialUpdateAgrees :
    ∃ X : Sponge, X.pendingLen = X.pending.length ∧ X.pendingLen < X.blockSize ∧ X.pendingLen = 71 :=
  ⟨{ initInstance .sha3_512 with pending := List.replicate 71 0, pendingLen := 71 }, by simp, by decide, rfl⟩

theorem witness_PadBlockForm : ∃ p : List Byte, p.length < 72 ∧ p.length = 71 := ⟨List.replicate 71 0, by simp, by simp⟩

theorem witness_SqueezeTakesTheFirstBytes : ∃ X : Sponge, X.digestLength ≤ X.blockSize ∧ X.digestLength = X.blockSize :=
  ⟨{ initInstance .sha3_512 with digestLength := 72 }, by decide, rfl⟩

theorem witness_KeyBlockForm :
    (∃ key : List Byte, key.length ≤ modeBlockSize .sha3_256 ∧ key.length = 136) ∧
    (∃ key : List Byte, modeBlockSize .sha3_256 < key.length ∧ key.length = 137) :=
  ⟨⟨List.replicate 136 0, by simp [modeBlockSize], by simp⟩, ⟨List.replicate 137 0, by simp [modeBlockSize], by simp⟩⟩

theorem witness_KeyLengthProperties :
    (∃ key : List Byte, modeBlockSize .sha3_256 < key.length) ∧
    (∃ (key : List Byte) (n : Nat), key.length + n ≤ modeBlockSize .sha3_256 ∧ key = key3 ∧ n = 133) :=
  ⟨⟨List.replicate 137 0, by simp [modeBlockSize]⟩, ⟨key3, 133, by decide, rfl, rfl⟩⟩

/-- Every clause of `SpongeInitResult`, tags 3, 4 and 15 at the ends of the ranges. -/
theorem witness_SpongeInitResult : ∀ n ∈ [0, 1, 2, 3, 4, 15], ∃ f s, PayloadThere f s ∧ f.mode = n ∧ s = fresh [] [] :=
  fun n _ => ⟨fields n false false false 0 0, _, no_payload _ _ _ _ _, rfl, rfl⟩

theorem witness_SpongeUpdateResult :
    (∃ f s, Inv s ∧ PayloadThere f s ∧ s.S.phase ≠ .absorbing ∧ s.S.phase = .squeezed) ∧
    (∃ f s, Inv s ∧ PayloadThere f s ∧ s.S.phase ≠ .absorbing ∧ s.S.phase = .uninit) ∧
    (∃ f s, Inv s ∧ PayloadThere f s ∧ s.S.phase = .absorbing ∧ f.ibp = false ∧ 0 < f.dlen ∧ f.dlen = 1) ∧
    (∃ f s, Inv s ∧ PayloadThere f s ∧ s.S.phase = .absorbing ∧ f.ibp = false ∧ f.dlen = 0) ∧
    (∃ f s, Inv s ∧ PayloadThere f s ∧ s.S.phase = .absorbing ∧ f.ibp = true ∧ f.dlen = 3) :=
  ⟨⟨fields 0 false false false 0 0, _, squeezed_inv, no_payload _ _ _ _ _, by decide, rfl⟩,
   ⟨fields 0 false false false 0 0, _, fresh_inv [] [], no_payload _ _ _ _ _, by decide, rfl⟩,
   ⟨fields 0 false false false 1 0, _, absorbing_inv [], no_payload _ _ _ _ _, rfl, rfl, by decide, rfl⟩,
   ⟨fields 0 false false false 0 0, _, absorbing_inv [], no_payload _ _ _ _ _, rfl, rfl, rfl⟩,
   ⟨fields 0 true false false 3 0, _, absorbing_inv abc, ⟨fun _ => by decide, fun h => (by cases h)⟩, rfl, rfl, rfl⟩⟩

theorem witness_SpongeFinalResult :
    (∃ f s, Inv s ∧ PayloadThere f s ∧ s.S.phase ≠ .absorbing) ∧
    (∃ f s, Inv s ∧ PayloadThere f s ∧ s.S.phase = .absorbing ∧ f.obp = false) ∧
    (∃ f s, Inv s ∧ PayloadThere f s ∧ s.S.phase = .absorbing ∧ f.obp = true ∧ s.outReady = true) :=
  ⟨⟨fields 0 false true false 0 0, _, squeezed_inv, no_payload _ _ _ _ _, by decide⟩,
   ⟨fields 0 false false false 0 0, _, absorbing_inv [], no_payload _ _ _ _ _, rfl, rfl⟩,
   ⟨fields 0 false true false 0 0, _, absorbing_inv [], no_payload _ _ _ _ _, rfl, rfl, rfl⟩⟩

theorem witness_HashResult :
    (∃ f s, PayloadThere f s ∧ (f.ibp = false ∨ f.obp = false) ∧ s = fresh [] []) ∧
    (∃ f s, PayloadThere f s ∧ f.ibp = true ∧ f.obp = true ∧ 3 < f.mode ∧ f.mode = 4 ∧ s = fresh abc []) ∧
    (∃ f s, PayloadThere f s ∧ f.ibp = true ∧ f.obp = true ∧ modeOfTag f.mode = some .sha3_512 ∧ s.outReady = true) :=
  ⟨⟨fields 0 false true false 0 0, _, no_payload _ _ _ _ _, .inl rfl, rfl⟩,
   ⟨fields 4 true true false 3 0, fresh abc [], ⟨fun _ => by decide, fun h => (by cases h)⟩, rfl, rfl, by decide, rfl, rfl⟩,
   ⟨fields 3 true true false 3 0, fresh abc [], ⟨fun _ => by decide, fun h => (by cases h)⟩, rfl, rfl, rfl, rfl⟩⟩

theorem witness_HmacInitResult :
    (∃ f s, PayloadThere f s ∧ f.kbp = false ∧ s = fresh [] []) ∧
    (∃ f s, PayloadThere f s ∧ f.kbp = true ∧ 3 < f.mode ∧ s = fresh [] key3) ∧
    (∃ f s, PayloadThere f s ∧ f.kbp = true ∧ modeOfTag f.mode = some .sha3_512 ∧ s = fresh [] key3) :=
  ⟨⟨fields 0 false false false 0 0, _, no_payload _ _ _ _ _, rfl, rfl⟩,
   ⟨fields 4 false false true 0 3, fresh [] key3, ⟨fun h => (by cases h), fun _ => by decide⟩, rfl, by decide, rfl⟩,
   ⟨fields 3 false false true 0 3, fresh [] key3, ⟨fun h => (by cases h), fun _ => by decide⟩, rfl, rfl, rfl⟩⟩

theorem witness_HmacUpdateResult :
    (∃ f s, Inv s ∧ PayloadThere f s ∧ s.HM.inner.phase ≠ .absorbing) ∧
    (∃ f s, Inv s ∧ PayloadThere f s ∧ s.HM.inner.phase = .absorbing ∧ f.ibp = false ∧ 0 < f.dlen) ∧
    (∃ f s, Inv s ∧ PayloadThere f s ∧ s.HM.inner.phase = .absorbing ∧ f.ibp = false ∧ f.dlen = 0) ∧
    (∃ f s, Inv s ∧ PayloadThere f s ∧ s.HM.inner.phase = .absorbing ∧ f.ibp = true ∧ f.dlen = 3) :=
  ⟨⟨fields 0 false false false 0 0, _, squeezed_inv, no_payload _ _ _ _ _, by decide⟩,
   ⟨fields 0 false false false 1 0, _, absorbing_inv [], no_payload _ _ _ _ _, rfl, rfl, by decide⟩,
   ⟨fields 0 false false false 0 0, _, absorbing_inv [], no_payload _ _ _ _ _, rfl, rfl, rfl⟩,
   ⟨fields 0 true false false 3 0, _, absorbing_inv abc, ⟨fun _ => by decide, fun h => (by cases h)⟩, rfl, rfl, rfl⟩⟩

theorem witness_HmacFinalResult :
    (∃ f s, Inv s ∧ PayloadThere f s ∧ s.HM.inner.phase ≠ .absorbing) ∧
    (∃ f s, Inv s ∧ PayloadThere f s ∧ s.HM.inner.phase = .absorbing ∧ f.obp = false) ∧
    (∃ f s, Inv s ∧ PayloadThere f s ∧ s.HM.inner.phase = .absorbing ∧ f.obp = true ∧ s.outReady = true) :=
  ⟨⟨fields 0 false true false 0 0, _, squeezed_inv, no_payload _ _ _ _ _, by decide⟩,
   ⟨fields 0 false false false 0 0, _, absorbing_inv [], no_payload _ _ _ _ _, rfl, rfl⟩,
   ⟨fields 0 false true false 0 0, _, absorbing_inv [], no_payload _ _ _ _ _, rfl, rfl, rfl⟩⟩

/-- Every clause of `HmacOneShotResult`. -/
theorem witness_HmacOneShotResult :
    PayloadThere (fields 0 false false false 0 0) (fresh [] []) ∧
    (∃ f, PayloadThere f (fresh abc key3) ∧ f.kbp = true ∧ 3 < f.mode) ∧
    (∃ f, PayloadThere f (fresh abc key3) ∧ f.kbp = true ∧ f.mode ≤ 3 ∧ f.ibp = false ∧ 0 < f.dlen) ∧
    (∃ f, PayloadThere f (fresh abc key3) ∧ f.kbp = true ∧ f.mode ≤ 3 ∧ f.ibp = false ∧ f.dlen = 0 ∧ f.obp = false) ∧
    (∃ f, PayloadThere f (fresh abc key3) ∧ f.kbp = true ∧ modeOfTag f.mode = some .sha3_256 ∧ f.ibp = true ∧ f.obp = true) ∧
    (∃ f, PayloadThere f (fresh abc key3) ∧ f.kbp = true ∧ modeOfTag f.mode = some .sha3_256 ∧ f.ibp = false ∧ f.dlen = 0 ∧
      f.obp = true) ∧
    (fresh abc key3).outReady = true :=
  ⟨no_payload _ _ _ _ _,
   ⟨fields 4 false true true 0 3, ⟨fun h => (by cases h), fun _ => by decide⟩, rfl, by decide⟩,
   ⟨fields 3 false true true 1 3, ⟨fun h => (by cases h), fun _ => by decide⟩, rfl, by decide, rfl, by decide⟩,
   ⟨fields 3 false false true 0 3, ⟨fun h => (by cases h), fun _ => by decide⟩, rfl, by decide, rfl, rfl, rfl⟩,
   ⟨fields 1 true true true 3 3, ⟨fun _ => by decide, fun _ => by decide⟩, rfl, rfl, rfl, rfl⟩,
   ⟨fields 1 false true true 0 3, ⟨fun h => (by cases h), fun _ => by decide⟩, rfl, rfl, rfl, rfl, rfl⟩, rfl⟩

theorem witness_FirstFailingCheckGivesTheStatus :
    ∃ (s : State) (w : CmdWord) (rest : List CmdWord), s.rst = false ∧ s.cmd = w :: rest ∧
      PayloadThere (fieldsOf w) s ∧ s.outReady = true ∧ statusOfWord w s = .ok :=
  ⟨offering 0x0000000000000203 (absorbing []), _, [], rfl, rfl, ⟨fun h => by revert h; decide, fun h => by revert h; decide⟩, rfl,
    by rfl⟩

theorem witness_FailedCommandChangesNothing :
    ∃ (s : State) (w : CmdWord) (rest : List CmdWord), s.rst = false ∧ s.cmd = w :: rest ∧
      PayloadThere (fieldsOf w) s ∧ statusOfWord w s ≠ .ok ∧ statusOfWord w s = .nullOutput :=
  ⟨offering 0x0000000000000003 (absorbing []), _, [], rfl, rfl, ⟨fun h => by revert h; decide, fun h => by revert h; decide⟩,
    by decide, by rfl⟩

theorem witness_OutputIsAllOrNothing : ∃ i s t, Inv s ∧ exec i s = .next t ∧ t.resp = s.resp ++ [.ok] ∧ outputLength i s = 32 :=
  ⟨.spongeFinal (fields 0 false true false 0 0), absorbing [], _, absorbing_inv [], rfl, rfl, rfl⟩

theorem witness_PhaseChanges : ∃ i s t, exec i s = .next t ∧ s.S.phase = .uninit ∧ t.S.phase = .absorbing :=
  ⟨.spongeInit (fields 0 false false false 0 0), fresh [] [], _, rfl, rfl, rfl⟩

theorem witness_ContextsAreWrittenByTheirOwnCommands :
    ∃ (i : Instr) (s t : State), exec i s = .next t ∧
      (∀ f, i ≠ .spongeInit f ∧ i ≠ .spongeUpdate f ∧ i ≠ .spongeFinal f) ∧
      (∀ f, i ≠ .hmacInit f ∧ i ≠ .hmacUpdate f ∧ i ≠ .hmacFinal f) :=
  ⟨.hash (fields 1 true true false 0 0), fresh [] [], _, rfl, fun _ => ⟨nofun, nofun, nofun⟩, fun _ => ⟨nofun, nofun, nofun⟩⟩

/-- The two states differ in `HM` and agree in all that `SPONGE_FINAL` may depend on. -/
theorem witness_ContextsDoNotInterfere :
    ∃ (i : Instr) (s1 s2 t1 t2 : State),
      s1.din = s2.din ∧ s1.kin = s2.kin ∧ s1.dout = s2.dout ∧ s1.resp = s2.resp ∧ s1.outReady = s2.outReady ∧
      exec i s1 = .next t1 ∧ exec i s2 = .next t2 ∧
      (∃ f, i = .spongeInit f ∨ i = .spongeUpdate f ∨ i = .spongeFinal f) ∧ s1.S = s2.S ∧
      s1.HM.inner.phase ≠ s2.HM.inner.phase :=
  ⟨.spongeFinal (fields 0 false true false 0 0), absorbing [], { absorbing [] with HM := State.resetHmac 0 }, _, _,
    rfl, rfl, rfl, rfl, rfl, rfl, rfl, ⟨_, .inr (.inr rfl)⟩, rfl, by decide⟩

theorem witness_IgnoredFieldsHaveNoEffect :
    ∃ (i j : Instr) (s : State), usedFieldsAgree i j ∧ i ≠ j ∧ PayloadThere i.fields s ∧ PayloadThere j.fields s ∧
      s.outReady = true :=
  ⟨.spongeInit (fields 1 false false false 0 0), .spongeInit (fields 1 true true true 3 3), fresh abc key3, rfl, by decide,
    no_payload _ _ _ _ _, ⟨fun _ => by decide, fun _ => by decide⟩, rfl⟩

theorem witness_KeyPadsChangeOnlyAtInitAndFinal :
    ∃ i s t, exec i s = .next t ∧ (∃ f, i = .hmacFinal f) ∧ t.resp = s.resp ++ [.ok] :=
  ⟨.hmacFinal (fields 0 false true false 0 0), absorbing [], _, rfl, ⟨_, rfl⟩, rfl⟩

theorem witness_EmptyUpdatesChangeNothing :
    ∃ f s, Inv s ∧ PayloadThere f s ∧ f.dlen = 0 ∧ f.ibp = true ∧ s.S.phase = .absorbing ∧ s.HM.inner.phase = .absorbing :=
  ⟨fields 0 true false false 0 0, absorbing [], absorbing_inv [], ⟨fun _ => by decide, fun h => (by cases h)⟩, rfl, rfl, rfl, rfl⟩

theorem witness_StepKeepsTheInvariant : ∃ s t, Inv s ∧ step s = .next t ∧ t.S.phase = .squeezed :=
  ⟨offering 0x0000000000000203 (absorbing []), _, ⟨(absorbing_inv []).S, (absorbing_inv []).HM⟩, rfl, rfl⟩

theorem witness_FieldsKeepTheirWidths : ∃ s t, Inv s ∧ fieldsFit s ∧ step s = .next t ∧ t.S.phase = .squeezed :=
  ⟨offering 0x0000000000000203 (absorbing []), _, ⟨(absorbing_inv []).S, (absorbing_inv []).HM⟩,
    ⟨⟨by decide, by decide, by decide, by decide, by decide⟩,
     ⟨by decide, by decide, by decide, by decide, by
        have := ((absorbing_inv []).HM.inner.pending_lt nofun)
        exact Nat.lt_trans this (by decide)⟩, by decide⟩, rfl, rfl⟩

/-- The two states differ in the unspecified mode of `S`. -/
theorem witness_UnspecifiedFieldsAreNeverSeen :
    ∃ s1 s2 t1 t2 : State, SameButUnspecified s1 s2 ∧ s1.S.rate ≠ s2.S.rate ∧ step s1 = .next t1 ∧ step s2 = .next t2 :=
  ⟨offering 0x0000000000000203 { fresh [] [] with S := { State.resetSponge 0 .S with rate := 0 } },
   offering 0x0000000000000203 { fresh [] [] with S := { State.resetSponge 0 .S with rate := 1 } }, _, _,
   ⟨.inr ⟨rfl, rfl⟩, .inl rfl, rfl, rfl, rfl, rfl, rfl, rfl, rfl⟩, by decide, rfl, rfl⟩

theorem witness_StreamedDigest :
    ∃ (m : Mode) (fi ff : Fields) (chunks : List (List Byte)) (s : State) (restCmd : List CmdWord) (restDin : List Byte),
      fi.wellFormed = true ∧ ff.wellFormed = true ∧
      modeOfTag fi.mode = some m ∧ fi.ibp = false ∧ fi.kbp = false ∧ ff.obp = true ∧ ff.ibp = false ∧ ff.kbp = false ∧
      (∀ c ∈ chunks, c.length < 2 ^ 24) ∧ s.rst = false ∧ s.outReady = true ∧
      s.cmd = encode (.spongeInit fi) :: (chunks.map fun c => encode (.spongeUpdate (dataFields c))) ++
        encode (.spongeFinal ff) :: restCmd ∧
      s.din = chunks.flatten ++ restDin ∧ chunks.length = 3 :=
  ⟨.sha3_256, fields 1 false false false 0 0, fields 0 false true false 0 0, [[0x61], [], [0x62, 0x63]],
    { fresh abc [] with cmd := [0x11, 0x10102, 0x102, 0x20102, 0x203] }, [], [],
    by decide, by decide, rfl, rfl, rfl, rfl, rfl, rfl, by decide, rfl, rfl, by decide, rfl, rfl⟩

theorem witness_StreamedMac :
    ∃ (m : Mode) (fi ff : Fields) (key : List Byte) (chunks : List (List Byte)) (s : State)
      (restCmd : List CmdWord) (restDin restKin : List Byte),
      fi.wellFormed = true ∧ ff.wellFormed = true ∧
      modeOfTag fi.mode = some m ∧ fi.ibp = false ∧ fi.kbp = true ∧ fi.klen = key.length ∧
      ff.obp = true ∧ ff.ibp = false ∧ ff.kbp = false ∧
      (∀ c ∈ chunks, c.length < 2 ^ 24) ∧ s.rst = false ∧ s.outReady = true ∧
      s.cmd = encode (.hmacInit fi) :: (chunks.map fun c => encode (.hmacUpdate (dataFields c))) ++
        encode (.hmacFinal ff) :: restCmd ∧
      s.din = chunks.flatten ++ restDin ∧ s.kin = key ++ restKin ∧ chunks.length = 1 :=
  ⟨.sha3_256, fields 1 false false true 0 3, fields 0 false true false 0 0, key3, [abc],
    { fresh abc key3 with cmd := [0x0000030000000415, 0x30106, 0x207] }, [], [], [],
    by decide, by decide, rfl, rfl, rfl, rfl, rfl, rfl, rfl, by decide, rfl, rfl, by decide, rfl, rfl, rfl⟩

end Sys2Proof.Tests
end

/-! # The state: what steps and commands leave of the two contexts (10_state.md) -/

namespace Sys2Proof.Proofs

open Sys2Proof.Machine Sys2Proof.Laws

/-! ## What a command and a step leave in the contexts -/

/-- Seen from the contexts, a command leaves both as they were, or succeeds and writes what its effect says. -/
theorem exec_contexts {i : Instr} {s t : State} (h : exec i s = .next t) :
    (t.S = s.S ∧ t.HM = s.HM) ∨
    ∃ e, Success s i e ∧ t.S = e.S ∧ t.HM = e.HM ∧ t.resp = s.resp ++ [.ok] := by
  obtain rfl | ⟨-, -, rfl⟩ | ⟨e, -, he, -, rfl⟩ := exec_cases h
  · exact .inl ⟨rfl, rfl⟩
  · exact .inl ⟨rfl, rfl⟩
  · exact .inr ⟨e, he, rfl, rfl, rfl⟩

/-- Seen from the contexts, a step takes a reset, leaves both as they were, or runs a command that succeeds. -/
theorem step_contexts {s t : State} (h : step s = .next t) :
    (∃ n, t.S = State.resetSponge n .S ∧ t.HM = State.resetHmac n) ∨
    (t.S = s.S ∧ t.HM = s.HM) ∨
    ∃ i e, Success s i e ∧ t.S = e.S ∧ t.HM = e.HM := by
  obtain ⟨-, rfl⟩ | ⟨-, -, rfl⟩ | ⟨w, rest, i, -, -, -, hx⟩ | ⟨w, rest, r, -, -, -, hx⟩ := step_cases h
  · exact .inl ⟨_, rfl, rfl⟩
  · exact .inr (.inl ⟨rfl, rfl⟩)
  · obtain hsame | ⟨e, he, hS, hHM, -⟩ := exec_contexts hx
    · exact .inr (.inl hsame)
    · exact .inr (.inr ⟨i, e, he, hS, hHM⟩)
  · obtain rfl | ⟨-, rfl⟩ := illegalCommand_cases hx <;> exact .inr (.inl ⟨rfl, rfl⟩)

/-! ## The invariant -/

/-- What a command that succeeds writes keeps the invariant (10_state.md R13 to R19). -/
theorem success_keeps_inv {s : State} {i : Instr} {e : Effect} (hs : Inv s) (h : Success s i e) :
    SpongeInv e.S ∧ HmacInv e.HM := by
  obtain ⟨hS, hHM⟩ := hs
  cases h with
  | spongeInit h => exact ⟨initInstance_inv _, hHM⟩
  | spongeUpdate hp h => exact ⟨updateInstance_inv hS _ hp, hHM⟩
  | spongeUpdateAbsent hp h hd => exact ⟨hS, hHM⟩
  | spongeFinal hp h => exact ⟨finalizeInstance_inv hS hp, hHM⟩
  | hash hi ho h => exact ⟨hS, hHM⟩
  | hmacInit hk h => exact ⟨hS, hmacInitInstance_inv _ _⟩
  | hmacUpdate hp h => exact ⟨hS, hmacInner_inv hHM _ hp⟩
  | hmacUpdateAbsent hp h hd => exact ⟨hS, hHM⟩
  | hmacFinal hp h => exact ⟨hS, hmacFinalInstance_inv hHM hp⟩
  | hmac hk h hi ho => exact ⟨hS, hHM⟩
  | hmacAbsent hk h hi hd ho => exact ⟨hS, hHM⟩

theorem step_keeps_inv {s t : State} (hs : Inv s) (h : step s = .next t) : Inv t := by
  obtain ⟨n, hS, hHM⟩ | ⟨hS, hHM⟩ | ⟨i, e, he, hS, hHM⟩ := step_contexts h
  · exact ⟨hS ▸ resetSponge_inv n .S, hHM ▸ resetHmac_inv n⟩
  · exact ⟨hS ▸ hs.S, hHM ▸ hs.HM⟩
  · obtain ⟨heS, heHM⟩ := success_keeps_inv hs he
    exact ⟨hS ▸ heS, hHM ▸ heHM⟩

/-- Settles O55: a step resets the contexts, leaves them, or writes the effect of a successful command. -/
theorem stepKeepsTheInvariant : Obligations.StepKeepsTheInvariant := fun _ _ => step_keeps_inv

/-- Settles O56: the state after reset is the one the zeroth reset leaves. -/
theorem resetHasTheInvariant : Obligations.ResetHasTheInvariant := ⟨afterReset_inv 0 true, rfl, rfl⟩

/-- Settles O10: the step is the reset, whose fields are those of `State.afterReset`. -/
theorem resetEffect : Obligations.ResetEffect := fun s h =>
  ⟨State.afterReset (s.resets + 1) s.outReady, step_of_rst h, by simp⟩

/-! ## Unspecified contents are never seen

Two states that differ only in contexts that are `UNINIT` in both pass and fail the same checks: an `UNINIT` sponge is
read by no command, since UPDATE and FINAL stop at the state check and INIT writes every field. So the effects of one
command in the two states agree, and so do the states it leaves. -/

/-- Two sponge contexts that are the same, or `UNINIT` both. -/
def SpongesAgree (X1 X2 : Sponge) : Prop := X1 = X2 ∨ (X1.phase = .uninit ∧ X2.phase = .uninit)

/-- Two HMAC contexts that are the same, or `UNINIT` both. -/
def HmacsAgree (Y1 Y2 : Hmac) : Prop := Y1 = Y2 ∨ (Y1.inner.phase = .uninit ∧ Y2.inner.phase = .uninit)

theorem HmacsAgree.inner {Y1 Y2 : Hmac} (h : HmacsAgree Y1 Y2) : SpongesAgree Y1.inner Y2.inner :=
  h.imp_left (congrArg Hmac.inner)

/-- Two outcomes of a command's checks: the same error, or effects that emit the same bytes and leave contexts that agree. -/
def ResultsAgree : Except Status Effect → Except Status Effect → Prop
  | .error st1, .error st2 => st1 = st2
  | .ok e1, .ok e2 => SpongesAgree e1.S e2.S ∧ HmacsAgree e1.HM e2.HM ∧ e1.out = e2.out
  | _, _ => False

/-- The update of a sponge that may be `UNINIT` does not see its other fields: the state check fails first. -/
theorem checkedUpdate_agree {X1 X2 : Sponge} (h : SpongesAgree X1 X2) (data : Option (List Byte)) (n : Nat) :
    checkedUpdate X1 data n = checkedUpdate X2 data n := by
  obtain rfl | ⟨h1, h2⟩ := h
  · rfl
  · rw [checkedUpdate_of_not_absorbing (by simp [h1]), checkedUpdate_of_not_absorbing (by simp [h2])]

theorem effectOf_agree {s1 s2 : State} (h : SameButUnspecified s1 s2) (i : Instr) :
    ResultsAgree (effectOf i s1) (effectOf i s2) := by
  obtain ⟨hS, hHM, -, hdin, hkin, -, -, -, -⟩ := h
  cases i with
  | spongeInit f =>
    simp only [effectOf, spongeInitEffect_eq]
    cases modeOfTag f.mode with
    | none => rfl
    | some m => exact ⟨.inl rfl, hHM, rfl⟩
  | spongeUpdate f =>
    simp only [effectOf, spongeUpdateEffect_eq, dataOperand, hdin, checkedUpdate_agree hS]
    cases checkedUpdate s2.S (if f.ibp then some (s2.din.take f.dlen) else none) f.dlen with
    | error st => rfl
    | ok X => exact ⟨.inl rfl, hHM, rfl⟩
  | spongeFinal f =>
    simp only [effectOf, spongeFinalEffect_eq]
    obtain hS | ⟨h1, h2⟩ := hS
    · rw [hS]
      split
      · rfl
      · split
        · rfl
        · exact ⟨.inl rfl, hHM, rfl⟩
    · simp [h1, h2, ResultsAgree]
  | hash f =>
    simp only [effectOf, hashEffect_eq, hdin]
    split
    · rfl
    · cases modeOfTag f.mode with
      | none => rfl
      | some m => exact ⟨hS, hHM, rfl⟩
  | hmacInit f =>
    simp only [effectOf, hmacInitEffect_eq, hkin]
    split
    · rfl
    · cases modeOfTag f.mode with
      | none => rfl
      | some m => exact ⟨hS, .inl rfl, rfl⟩
  | hmacUpdate f =>
    simp only [effectOf, hmacUpdateEffect_eq, dataOperand, hdin]
    obtain hHM | ⟨h1, h2⟩ := hHM
    · rw [hHM]
      cases checkedUpdate s2.HM.inner (if f.ibp then some (s2.din.take f.dlen) else none) f.dlen with
      | error st => rfl
      | ok X => exact ⟨hS, .inl rfl, rfl⟩
    · simp [checkedUpdate_of_not_absorbing, h1, h2, ResultsAgree]
  | hmacFinal f =>
    simp only [effectOf, hmacFinalEffect_eq]
    obtain hHM | ⟨h1, h2⟩ := hHM
    · rw [hHM]
      split
      · rfl
      · split
        · rfl
        · exact ⟨hS, .inl rfl, rfl⟩
    · simp [h1, h2, ResultsAgree]
  | hmac f =>
    simp only [effectOf, hmacEffect_eq, hdin, hkin]
    split
    · rfl
    · cases modeOfTag f.mode with
      | none => rfl
      | some m =>
        dsimp only
        split
        · rfl
        · split
          · rfl
          · exact ⟨hS, hHM, rfl⟩

/-- Commands that leave contexts that agree and emit the same, in two states that differ at most in what is unspecified, leave
two such states. -/
theorem afterCommand_agree {s1 s2 : State} (h : SameButUnspecified s1 s2) {X1 X2 : Sponge} {Y1 Y2 : Hmac}
    (hX : SpongesAgree X1 X2) (hY : HmacsAgree Y1 Y2) (f : Fields) (out : List Byte) (st : Status) :
    SameButUnspecified (afterCommand f s1 X1 Y1 out st) (afterCommand f s2 X2 Y2 out st) where
  S := hX
  HM := hY
  cmd := by simp [h.cmd]
  din := by simp [h.din]
  kin := by simp [h.kin]
  dout := by simp [h.dout]
  resp := by simp [h.resp]
  outReady := h.outReady
  rst := h.rst

theorem payloadThere_agree {s1 s2 : State} (h : SameButUnspecified s1 s2) (f : Fields) :
    PayloadThere f s1 ↔ PayloadThere f s2 := by
  simp [PayloadThere, h.din, h.kin]

/-- A command whose checks and effects agree in the two states waits in both, fails alike in both or completes alike in both. -/
theorem runCommand_agree {f : Fields} {s1 s2 t1 t2 : State} {r1 r2 : Except Status Effect} (h : SameButUnspecified s1 s2)
    (hr : ResultsAgree r1 r2) (h1 : runCommand f s1 r1 = .next t1) (h2 : runCommand f s2 r2 = .next t2) :
    SameButUnspecified t1 t2 := by
  by_cases hp : PayloadThere f s1
  · have hp2 := (payloadThere_agree h f).1 hp
    match r1, r2, hr with
    | .error st, .error _, rfl =>
      rw [runCommand_error hp] at h1
      rw [runCommand_error hp2] at h2
      cases h1
      cases h2
      exact afterCommand_agree h h.S h.HM f [] st
    | .ok e1, .ok e2, ⟨hX, hY, hout⟩ =>
      by_cases ho : e1.out = [] ∨ s1.outReady = true
      · rw [runCommand_ok hp e1 ho] at h1
        rw [runCommand_ok hp2 e2 (hout ▸ h.outReady ▸ ho), ← hout] at h2
        cases h1
        cases h2
        exact afterCommand_agree h hX hY f e1.out .ok
      · simp only [not_or, Bool.not_eq_true] at ho
        obtain ⟨hne, hnr⟩ := ho
        rw [runCommand_waits_for_output e1 hne hnr] at h1
        rw [runCommand_waits_for_output e2 (hout ▸ hne) (h.outReady ▸ hnr)] at h2
        cases h1
        cases h2
        exact h
  · rw [runCommand_waits_for_payload hp] at h1
    rw [runCommand_waits_for_payload (mt (payloadThere_agree h f).2 hp)] at h2
    cases h1
    cases h2
    exact h

/-- After a reset both contexts are `UNINIT` and the channels are empty, whatever the number of resets. -/
theorem afterReset_agree (n1 n2 : Nat) (r : Bool) :
    SameButUnspecified (State.afterReset n1 r) (State.afterReset n2 r) where
  S := .inr ⟨rfl, rfl⟩
  HM := .inr ⟨rfl, rfl⟩
  cmd := rfl
  din := rfl
  kin := rfl
  dout := rfl
  resp := rfl
  outReady := rfl
  rst := rfl

/-- Settles O58: both states take the same kind of step, by the reset input and the oldest word, which are equal. -/
theorem unspecifiedFieldsAreNeverSeen : Obligations.UnspecifiedFieldsAreNeverSeen := by
  intro s1 s2 t1 t2 h h1 h2
  cases hr : s2.rst with
  | true =>
    rw [step_of_rst (h.rst.trans hr), Host.Outcome.next.injEq] at h1
    rw [step_of_rst hr, Host.Outcome.next.injEq] at h2
    rw [← h1, ← h2, h.outReady]
    exact afterReset_agree _ _ _
  | false =>
    simp only [step, nextWord, h.rst, h.cmd, hr, Bool.false_eq_true, if_false] at h1 h2
    cases hw : s2.cmd.head? with
    | none =>
      simp only [hw, waitForHost] at h1 h2
      cases h1
      cases h2
      exact h
    | some w =>
      simp only [hw] at h1 h2
      cases hd : decode w with
      | ok i =>
        simp only [hd, exec_eq_runCommand] at h1 h2
        exact runCommand_agree h (effectOf_agree h i) h1 h2
      | error r =>
        simp only [hd, illegalCommand] at h1 h2
        exact runCommand_agree h (show ResultsAgree (.error _) (.error _) from rfl) h1 h2

/-! ## Phases, ownership of the contexts, the key pads -/

/-- The phase of `S` after a command that succeeds (10_state.md R16). -/
theorem success_S_phase {s : State} {i : Instr} {e : Effect} (h : Success s i e) :
    e.S.phase = s.S.phase ∨ ((∃ f, i = .spongeInit f) ∧ e.S.phase = .absorbing) ∨
      ((∃ f, i = .spongeFinal f) ∧ s.S.phase = .absorbing ∧ e.S.phase = .squeezed) := by
  cases h with
  | spongeInit h => exact .inr (.inl ⟨⟨_, rfl⟩, rfl⟩)
  | spongeFinal hp h => exact .inr (.inr ⟨⟨_, rfl⟩, hp, rfl⟩)
  | _ => exact .inl rfl

/-- The phase of `HM` after a command that succeeds (10_state.md R19). -/
theorem success_HM_phase {s : State} {i : Instr} {e : Effect} (h : Success s i e) :
    e.HM.inner.phase = s.HM.inner.phase ∨ ((∃ f, i = .hmacInit f) ∧ e.HM.inner.phase = .absorbing) ∨
      ((∃ f, i = .hmacFinal f) ∧ s.HM.inner.phase = .absorbing ∧ e.HM.inner.phase = .squeezed) := by
  cases h with
  | hmacInit hk h => exact .inr (.inl ⟨⟨_, rfl⟩, rfl⟩)
  | hmacFinal hp h => exact .inr (.inr ⟨⟨_, rfl⟩, hp, rfl⟩)
  | _ => exact .inl rfl

/-- Settles O49: only a command that succeeds writes a context, and of those only INIT and FINAL write its phase. -/
theorem phaseChanges : Obligations.PhaseChanges := by
  intro i s t h
  obtain ⟨hS, hHM⟩ | ⟨e, he, hS, hHM, hresp⟩ := exec_contexts h
  · exact ⟨.inl (by rw [hS]), .inl (by rw [hHM])⟩
  · rw [hS, hHM]
    simpa only [hresp, and_true] using ⟨success_S_phase he, success_HM_phase he⟩

/-- A command that succeeds and is none of the `SPONGE_*` commands writes back `S` as it was. -/
theorem success_keeps_S {s : State} {i : Instr} {e : Effect} (h : Success s i e)
    (hi : ∀ f, i ≠ .spongeInit f ∧ i ≠ .spongeUpdate f ∧ i ≠ .spongeFinal f) : e.S = s.S := by
  cases h with
  | @spongeInit f | @spongeUpdate f | @spongeUpdateAbsent f | @spongeFinal f => exact absurd (hi f) (by simp)
  | _ => rfl

/-- A command that succeeds and is none of the streaming HMAC commands writes back `HM` as it was. -/
theorem success_keeps_HM {s : State} {i : Instr} {e : Effect} (h : Success s i e)
    (hi : ∀ f, i ≠ .hmacInit f ∧ i ≠ .hmacUpdate f ∧ i ≠ .hmacFinal f) : e.HM = s.HM := by
  cases h with
  | @hmacInit f | @hmacUpdate f | @hmacUpdateAbsent f | @hmacFinal f => exact absurd (hi f) (by simp)
  | _ => rfl

/-- Settles O50: of the commands that succeed, those of the other context write this one back as it was. -/
theorem contextsAreWrittenByTheirOwnCommands : Obligations.ContextsAreWrittenByTheirOwnCommands := by
  intro i s t h
  obtain ⟨hS, hHM⟩ | ⟨e, he, hS, hHM, -⟩ := exec_contexts h
  · exact ⟨fun _ => hS, fun _ => hHM⟩
  · exact ⟨fun hi => hS.trans (success_keeps_S he hi), fun hi => hHM.trans (success_keeps_HM he hi)⟩

/-- The key pads after a command that succeeds (10_state.md R18, R25). -/
theorem success_pads {s : State} {i : Instr} {e : Effect} (h : Success s i e) :
    (e.HM.ipad = s.HM.ipad ∧ e.HM.opad = s.HM.opad) ∨ (∃ f, i = .hmacInit f) ∨
      ((∃ f, i = .hmacFinal f) ∧ e.HM.ipad = zeroPad ∧ e.HM.opad = zeroPad) := by
  cases h with
  | hmacInit hk h => exact .inr (.inl ⟨_, rfl⟩)
  | hmacFinal hp h => exact .inr (.inr ⟨⟨_, rfl⟩, rfl, rfl⟩)
  | _ => exact .inl ⟨rfl, rfl⟩

/-- Settles O53: HMAC_UPDATE writes the inner sponge only, and HMAC_FINAL leaves the zero pads. -/
theorem keyPadsChangeOnlyAtInitAndFinal : Obligations.KeyPadsChangeOnlyAtInitAndFinal := by
  intro i s t h
  obtain ⟨-, hHM⟩ | ⟨e, he, -, hHM, hresp⟩ := exec_contexts h
  · exact .inl (by simp [hHM])
  · rw [hHM]
    obtain hsame | hinit | ⟨hfinal, hip, hop⟩ := success_pads he
    · exact .inl hsame
    · exact .inr (.inl ⟨hinit, hresp⟩)
    · exact .inr (.inr ⟨hfinal, hresp, fun j => by rw [hip, hop]; exact ⟨zeroPad_getElem j, zeroPad_getElem j⟩⟩)

/-! ## Widths

An initialised context with the invariant fits its widths, since its fields are a row of the mode table. A context that is
`UNINIT` after a step was not written by it, or holds the free values of a reset, which have the widths by their type. -/

theorem modeFields_fit (m : Mode) :
    modeRate m < 2 ^ 11 ∧ modeCapacity m < 2 ^ 11 ∧ modeDigestLength m < 2 ^ 7 ∧ modeBlockSize m < 2 ^ 8 := by
  cases m <;> decide

theorem spongeFits_of_inv {X : Sponge} (h : SpongeInv X) (hp : X.phase ≠ .uninit) : spongeFits X := by
  obtain ⟨hr, hc, hd, hb⟩ := h.fields hp
  obtain ⟨hr', hc', hd', hb'⟩ := modeFields_fit X.mode
  have hlt := h.pending_lt hp
  refine ⟨?_, ?_, ?_, ?_, ?_⟩ <;> omega

theorem resetSponge_fits (n : Nat) (x : Context) : spongeFits (State.resetSponge n x) :=
  ⟨BitVec.isLt _, BitVec.isLt _, BitVec.isLt _, BitVec.isLt _, BitVec.isLt _⟩

/-- The widths of the HMAC context (10_state.md R18). -/
def hmacFits (Y : Hmac) : Prop := spongeFits Y.inner ∧ Y.blockSize < 2 ^ 8

theorem fieldsFit_iff (s : State) : fieldsFit s ↔ spongeFits s.S ∧ hmacFits s.HM := Iff.rfl

theorem hmacFits_of_inv {Y : Hmac} (h : HmacInv Y) (hp : Y.inner.phase ≠ .uninit) : hmacFits Y := by
  obtain ⟨-, -, -, hb, -⟩ := spongeFits_of_inv h.inner hp
  exact ⟨spongeFits_of_inv h.inner hp, h.blockSize_eq hp ▸ hb⟩

theorem resetHmac_fits (n : Nat) : hmacFits (State.resetHmac n) := ⟨resetSponge_fits n .inner, BitVec.isLt _⟩

/-- A command that succeeds leaves `S` as it was, or initialised. -/
theorem success_S_unwritten_or_initialised {s : State} {i : Instr} {e : Effect} (h : Success s i e) :
    e.S = s.S ∨ e.S.phase ≠ .uninit := by
  cases h with
  | spongeInit h => exact .inr (by simp)
  | spongeUpdate hp h => exact .inr (by simp [hp])
  | spongeFinal hp h => exact .inr (by simp)
  | _ => exact .inl rfl

/-- A command that succeeds leaves `HM` as it was, or initialised. -/
theorem success_HM_unwritten_or_initialised {s : State} {i : Instr} {e : Effect} (h : Success s i e) :
    e.HM = s.HM ∨ e.HM.inner.phase ≠ .uninit := by
  cases h with
  | hmacInit hk h => exact .inr (by simp [hmacInitInstance_inner])
  | hmacUpdate hp h => exact .inr (by simp [hp])
  | hmacFinal hp h => exact .inr (by simp)
  | _ => exact .inl rfl

theorem step_keeps_widths {s t : State} (hs : Inv s) (hf : fieldsFit s) (h : step s = .next t) : fieldsFit t := by
  obtain ⟨htS, htHM⟩ := step_keeps_inv hs h
  rw [fieldsFit_iff] at hf ⊢
  obtain ⟨hfS, hfHM⟩ := hf
  obtain ⟨n, hS, hHM⟩ | ⟨hS, hHM⟩ | ⟨i, e, he, hS, hHM⟩ := step_contexts h
  · exact ⟨hS ▸ resetSponge_fits n .S, hHM ▸ resetHmac_fits n⟩
  · exact ⟨hS ▸ hfS, hHM ▸ hfHM⟩
  · constructor
    · obtain hsame | hinit := success_S_unwritten_or_initialised he
      · exact (hS.trans hsame) ▸ hfS
      · exact spongeFits_of_inv htS (hS ▸ hinit)
    · obtain hsame | hinit := success_HM_unwritten_or_initialised he
      · exact (hHM.trans hsame) ▸ hfHM
      · exact hmacFits_of_inv htHM (hHM ▸ hinit)

/-- Settles O57: reset values fit by their types, and a step keeps the widths by the invariant it keeps. -/
theorem fieldsKeepTheirWidths : Obligations.FieldsKeepTheirWidths :=
  ⟨⟨resetSponge_fits 0 .S, resetHmac_fits 0⟩, fun _ _ => step_keeps_widths⟩

/-! ## The absorbed state as a function of the message -/

@[simp] theorem blocksOf_zero (bs : Nat) (b : List Byte) : blocksOf bs 0 b = [] := rfl

theorem blocksOf_succ (bs n : Nat) (b : List Byte) :
    blocksOf bs (n + 1) b = b.take bs :: blocksOf bs n (b.drop bs) := by
  simp [blocksOf, List.range_succ_eq_map, Nat.add_mul, Nat.add_comm]

/-- With enough turns the loop of R94 absorbs exactly the whole blocks of its buffer and leaves the bytes after them. -/
theorem absorbWhile_eq {bs : Nat} (hbs : 0 < bs) : ∀ (n : Nat) (A : Lanes) (buf : List Byte), buf.length ≤ n →
    absorbWhile bs n A buf =
      (absorbBlocks A (blocksOf bs (buf.length / bs) buf), buf.drop (bs * (buf.length / bs))) := by
  intro n
  induction n with
  | zero =>
    intro A buf h
    have hnil : buf = [] := List.length_eq_zero_iff.1 (by omega)
    simp [hnil, absorbWhile_zero, absorbBlocks]
  | succ n ih =>
    intro A buf h
    by_cases hb : bs ≤ buf.length
    · have hq : buf.length / bs = (buf.length - bs) / bs + 1 := Nat.div_eq_sub_div hbs hb
      rw [absorbWhile_of_le hb, ih _ _ (by simp; omega), hq, blocksOf_succ]
      simp [absorbBlocks, Nat.mul_add, Nat.add_comm]
    · rw [absorbWhile_of_lt (by omega), Nat.div_eq_of_lt (by omega)]
      simp [absorbBlocks]

/-- Any number of turns that is enough gives the same. -/
theorem absorbWhile_turns {bs n k : Nat} {A : Lanes} {buf : List Byte} (hbs : 0 < bs) (hn : buf.length ≤ n)
    (hk : buf.length ≤ k) : absorbWhile bs n A buf = absorbWhile bs k A buf := by
  rw [absorbWhile_eq hbs n A buf hn, absorbWhile_eq hbs k A buf hk]

/-- The update absorbs the whole blocks of `pending ‖ d` and leaves the rest pending (41_sponge.md R94). -/
theorem updateInstance_eq {X : Sponge} (hbs : 0 < X.blockSize) (d : List Byte) :
    updateInstance X d =
      { X with
        A := absorbBlocks X.A (blocksOf X.blockSize ((X.pending ++ d).length / X.blockSize) (X.pending ++ d))
        pending := (X.pending ++ d).drop (X.blockSize * ((X.pending ++ d).length / X.blockSize))
        pendingLen := (X.pending ++ d).length % X.blockSize } := by
  simp only [updateInstance]
  rw [absorbWhile_eq hbs _ _ _ (Nat.le_refl _), List.length_drop, ← Nat.mod_eq_sub]

/-- Absorbing the whole blocks of a buffer, then those of its rest with more bytes behind it, is absorbing the whole blocks of
all of it. -/
theorem absorbWhile_append {bs : Nat} (hbs : 0 < bs) (d : List Byte) : ∀ (n k l : Nat) (A : Lanes) (buf : List Byte),
    buf.length ≤ n → (absorbWhile bs n A buf).2.length + d.length ≤ k → buf.length + d.length ≤ l →
    absorbWhile bs k (absorbWhile bs n A buf).1 ((absorbWhile bs n A buf).2 ++ d) = absorbWhile bs l A (buf ++ d) := by
  intro n
  induction n with
  | zero =>
    intro k l A buf _ hk hl
    rw [absorbWhile_zero] at hk ⊢
    exact absorbWhile_turns hbs (by simpa using hk) (by simpa using hl)
  | succ n ih =>
    intro k l A buf hn hk hl
    by_cases hb : bs ≤ buf.length
    · obtain ⟨l, rfl⟩ : ∃ l', l = l' + 1 := Nat.exists_eq_add_one.2 (by omega)
      rw [absorbWhile_of_le hb] at hk ⊢
      rw [absorbWhile_of_le (by simp; omega), List.take_append_of_le_length hb, List.drop_append_of_le_length hb]
      exact ih k l _ _ (by simp; omega) hk (by simp; omega)
    · rw [absorbWhile_of_lt (Nat.not_le.1 hb)] at hk ⊢
      exact absorbWhile_turns hbs (by simpa using hk) (by simpa using hl)

/-- Two updates are the update by the concatenation (41_sponge.md R94, R104). -/
theorem updateInstance_append {X : Sponge} (hbs : 0 < X.blockSize) (c d : List Byte) :
    updateInstance (updateInstance X c) d = updateInstance X (c ++ d) := by
  simp only [updateInstance]
  rw [absorbWhile_append hbs d _ _ _ _ _ (Nat.le_refl _) (by simp) (Nat.le_of_eq List.length_append.symm), List.append_assoc]

/-- An update by nothing changes nothing while less than a block is pending. -/
theorem updateInstance_nil {X : Sponge} (hlen : X.pendingLen = X.pending.length) (hlt : X.pending.length < X.blockSize) :
    updateInstance X [] = X := by
  simp only [updateInstance, List.append_nil]
  rw [absorbWhile_of_lt hlt, ← hlen]

/-- Any number of updates are the update by the concatenation of their bytes. -/
theorem foldl_updateInstance (chunks : List (List Byte)) : ∀ {X : Sponge}, X.pendingLen = X.pending.length →
    X.pending.length < X.blockSize → chunks.foldl updateInstance X = updateInstance X chunks.flatten := by
  induction chunks with
  | nil => exact fun hlen hlt => (updateInstance_nil hlen hlt).symm
  | cons c cs ih =>
    intro X hlen hlt
    have hbs : 0 < X.blockSize := Nat.zero_lt_of_lt hlt
    rw [List.foldl_cons, ih rfl (updateInstance_pending_lt hbs c), updateInstance_append hbs, List.flatten_cons]

/-- Settles O30: the updates are one update of the fresh sponge by `M`, which absorbs the whole blocks of `M`. -/
theorem absorbedStateIsAFunctionOfTheMessage : Obligations.AbsorbedStateIsAFunctionOfTheMessage := by
  intro m chunks
  have hbs := modeBlockSize_pos m
  have hX := foldl_updateInstance chunks (X := initInstance m) rfl hbs
  have hM := updateInstance_eq (X := initInstance m) hbs chunks.flatten
  dsimp only
  rw [hX]
  exact ⟨rfl, rfl, by rw [hM]; rfl, rfl, by rw [hM]; rfl⟩

end Sys2Proof.Proofs

/-! # Memory: the byte order of lanes, the words of commands, the contexts apart, whole messages (20_memory.md) -/

namespace Sys2Proof.Proofs

open Sys2Proof.Machine Sys2Proof.Laws

/-! ## The bytes of a lane -/

/-- Byte `j` of a lane, counted from the least significant end (20_memory.md R32). -/
def laneByte (x : Lane) (j : Nat) : Byte := (x >>> (8 * j)).setWidth 8

/-- State byte `k` is byte `k mod 8` of lane `k div 8`. -/
theorem stateByte_eq_laneByte (A : Lanes) {k : Nat} (hk : k < 200) :
    stateByte A k = laneByte (A[k / 8]'(by omega)) (k % 8) := by
  have hi : k / 8 < 25 := by omega
  simp [stateByte, laneByte, hi]

theorem laneByte_toNat (x : Lane) (j : Nat) : (laneByte x j).toNat = x.toNat / 2 ^ (8 * j) % 2 ^ 8 := by
  simp [laneByte, Nat.shiftRight_eq_div_pow]

/-- The bytes below `n` of a number, each at its place, are the number's low `8n` bits. -/
theorem sum_bytes_eq_mod (x n : Nat) :
    ((List.range n).map fun j => x / 2 ^ (8 * j) % 2 ^ 8 * 2 ^ (8 * j)).sum = x % 2 ^ (8 * n) := by
  induction n with
  | zero => simp [Nat.mod_one]
  | succ n ih =>
    rw [List.range_succ, List.map_append, List.sum_append, ih, Nat.mul_succ, Nat.pow_add, Nat.mod_mul]
    simp [Nat.mul_comm]

/-- Settles O25: the state bytes of a lane are its bytes, and a lane has no bits beyond its eight bytes. -/
theorem lanesAreLittleEndian : Obligations.LanesAreLittleEndian := by
  intro A i
  have hbyte : ∀ j ∈ List.range 8,
      (stateByte A (8 * i.val + j)).toNat * 2 ^ (8 * j) = A[i].toNat / 2 ^ (8 * j) % 2 ^ 8 * 2 ^ (8 * j) := by
    intro j hj
    have hj8 : j < 8 := List.mem_range.1 hj
    have hdiv : (8 * i.val + j) / 8 = i.val := by omega
    have hmod : (8 * i.val + j) % 8 = j := by omega
    rw [stateByte_eq_laneByte A (by omega), laneByte_toNat]
    simp [hdiv, hmod]
  rw [List.map_congr_left hbyte, sum_bytes_eq_mod, Nat.mod_eq_of_lt A[i].isLt]

/-! ## The block in the state -/

theorem laneByte_xor (x y : Lane) (j : Nat) : laneByte (x ^^^ y) j = laneByte x j ^^^ laneByte y j := by
  simp [laneByte, BitVec.ushiftRight_xor_distrib, BitVec.setWidth_xor]

/-- Byte `j` of a lane read from a byte sequence is byte `j` of the sequence, or 0 beyond its end. -/
theorem laneByte_le64 (l : List Byte) {j : Nat} (hj : j < 8) : laneByte (le64 l) j = l.getD j 0 := by
  induction l generalizing j with
  | nil => simp [le64, laneByte]
  | cons b rest ih =>
    cases j with
    | zero =>
      ext t ht
      simp [le64, laneByte]
    | succ j =>
      rw [List.getD_cons_succ, ← ih (by omega)]
      ext t ht
      have hin : 8 * (j + 1) + t < 64 := by omega
      have hshift : 8 * (j + 1) + t - 8 = 8 * j + t := by omega
      have hfirst : b.getLsbD (8 * (j + 1) + t) = false := BitVec.getLsbD_of_ge _ _ (by omega)
      have hrest : ¬ 8 * (j + 1) + t < 8 := by omega
      simp [le64, laneByte, hin, hshift, hfirst, hrest, BitVec.getLsbD_eq_getElem (by omega : 8 * j + t < 64)]

/-- The XOR of a block, byte by byte: beyond its end the block is zeros (20_memory.md R34). -/
theorem stateByte_xorBlock (A : Lanes) (blk : List Byte) {k : Nat} (hk : k < 200) :
    stateByte (xorBlock A blk) k = stateByte A k ^^^ blk.getD k 0 := by
  have hlane := xorBlock_getElem A blk ⟨k / 8, by omega⟩
  have hget : ((blk.drop (8 * (k / 8))).take 8).getD (k % 8) 0 = blk.getD k 0 := by
    simp [List.getD, List.getElem?_take_of_lt (Nat.mod_lt k (by decide : 0 < 8)), Nat.div_add_mod]
  rw [stateByte_eq_laneByte _ hk, stateByte_eq_laneByte _ hk, ← hget, ← laneByte_le64 _ (Nat.mod_lt k (by decide)),
    ← laneByte_xor]
  exact congrArg (laneByte · (k % 8)) hlane

/-- Settles O27: a block is zero beyond its end, and XOR with zero changes nothing. -/
theorem blockGoesIntoTheRate : Obligations.BlockGoesIntoTheRate := by
  intro A blk k hk
  rw [stateByte_xorBlock A blk hk]
  exact ⟨fun h => by rw [List.getD_eq_getElem _ _ h], fun h => by simp [List.getElem?_eq_none h]⟩

/-! ## A step runs the command its word carries -/

/-- Settles O7: with no reset and a word on `CMD`, the step is its branch for a legal word. -/
theorem stepRunsTheDecodedCommand : Obligations.StepRunsTheDecodedCommand := by
  intro s w rest i hr hc hd
  simp [step, hr, nextWord, hc, hd]

theorem presenceBit_lt (b : Bool) : presenceBit b < 2 := by cases b <;> decide

@[simp] theorem presenceBit_beq_one (b : Bool) : (presenceBit b == 1) = b := by cases b <;> rfl

theorem wellFormed_iff (f : Fields) : f.wellFormed = true ↔ f.mode < 2 ^ 4 ∧ f.dlen < 2 ^ 24 ∧ f.klen < 2 ^ 24 := by
  simp [Fields.wellFormed, Fields.modeFits, Fields.dlenFits, Fields.klenFits, and_assoc]

/-- The fields of a well-formed command fit their places, so `encode` cuts nothing off (30_encoding.md R50). -/
theorem encode_toNat {i : Instr} (h : i.wellFormed = true) :
    (encode i).toNat = i.opcode + 2 ^ 4 * i.fields.mode + 2 ^ 8 * presenceBit i.fields.ibp
      + 2 ^ 9 * presenceBit i.fields.obp + 2 ^ 10 * presenceBit i.fields.kbp + 2 ^ 16 * i.fields.dlen
      + 2 ^ 40 * i.fields.klen := by
  obtain ⟨hm, hd, hkl⟩ := (wellFormed_iff i.fields).1 h
  have hop := OpcodeField.opcode_lt i
  have hi := presenceBit_lt i.fields.ibp
  have ho := presenceBit_lt i.fields.obp
  have hk := presenceBit_lt i.fields.kbp
  simp only [encode, BitVec.toNat_ofNat]
  omega

/-- Every bit range of a well-formed command's word is the field that lies there (30_encoding.md R50). -/
theorem bitField_encode {i : Instr} (h : i.wellFormed = true) :
    bitField (encode i) 0 4 = i.opcode ∧ bitField (encode i) 4 4 = i.fields.mode ∧
    bitField (encode i) 8 1 = presenceBit i.fields.ibp ∧ bitField (encode i) 9 1 = presenceBit i.fields.obp ∧
    bitField (encode i) 10 1 = presenceBit i.fields.kbp ∧ bitField (encode i) 11 5 = 0 ∧
    bitField (encode i) 16 24 = i.fields.dlen ∧ bitField (encode i) 40 24 = i.fields.klen := by
  obtain ⟨hm, hd, hkl⟩ := (wellFormed_iff i.fields).1 h
  have hop := OpcodeField.opcode_lt i
  have hi := presenceBit_lt i.fields.ibp
  have ho := presenceBit_lt i.fields.obp
  have hk := presenceBit_lt i.fields.kbp
  simp only [bitField, encode_toNat h]
  omega

theorem fieldsOf_encode {i : Instr} (h : i.wellFormed = true) : fieldsOf (encode i) = i.fields := by
  obtain ⟨-, hm, hi, ho, hk, -, hd, hkl⟩ := bitField_encode h
  simp [fieldsOf, hm, hi, ho, hk, hd, hkl]

/-- The decoder reads back the command from its word (30_encoding.md R62). -/
theorem decode_encode {i : Instr} (h : i.wellFormed = true) : decode (encode i) = .ok i := by
  obtain ⟨hop, -, -, -, -, hrsv, -, -⟩ := bitField_encode h
  have hinstr : instrOf i.opcode i.fields = some i := by cases i <;> rfl
  simp [decode, hop, hrsv, fieldsOf_encode h, hinstr]

/-- The step on the word of a well-formed command is that command. -/
theorem step_encode {s : State} {i : Instr} {rest : List CmdWord} (hr : s.rst = false) (hc : s.cmd = encode i :: rest)
    (hi : i.wellFormed = true) : step s = exec i s :=
  stepRunsTheDecodedCommand s _ rest i hr hc (decode_encode hi)

/-- A command whose checks pass, with its payload there and its output taken, completes. -/
theorem exec_ok {i : Instr} {s : State} {e : Effect} (he : effectOf i s = .ok e) (hpay : PayloadThere i.fields s)
    (hout : e.out = [] ∨ s.outReady = true) : exec i s = .next (afterCommand i.fields s e.S e.HM e.out .ok) := by
  rw [exec_eq_runCommand, he]
  exact runCommand_ok hpay e hout

/-- The step on the word of such a command. -/
theorem step_ok {i : Instr} {s : State} {e : Effect} {rest : List CmdWord} (he : effectOf i s = .ok e)
    (hr : s.rst = false) (hc : s.cmd = encode i :: rest) (hw : i.wellFormed = true) (hpay : PayloadThere i.fields s)
    (hout : e.out = [] ∨ s.outReady = true) : step s = .next (afterCommand i.fields s e.S e.HM e.out .ok) :=
  (step_encode hr hc hw).trans (exec_ok he hpay hout)

/-! ## Empty updates -/

/-- An update of length 0 passes the checks and changes nothing, its buffer present or absent (20_memory.md R38). -/
theorem checkedUpdate_empty {X : Sponge} (hX : SpongeInv X) (hp : X.phase = .absorbing) {f : Fields} (hd : f.dlen = 0)
    (s : State) : checkedUpdate X (dataOperand f s) f.dlen = .ok X := by
  cases hi : f.ibp with
  | false => simp [dataOperand, hi, hd, checkedUpdate_none hp]
  | true =>
    have hlt : X.pending.length < X.blockSize := hX.pendingLen_eq ▸ hX.pending_lt (by simp [hp])
    simp [dataOperand, hi, hd, checkedUpdate_some hp, updateInstance_nil hX.pendingLen_eq hlt]

/-- Settles O54: the effect of either update is then no effect. -/
theorem emptyUpdatesChangeNothing : Obligations.EmptyUpdatesChangeNothing := by
  intro f s hs hpay hd
  constructor
  · intro hp
    have he : effectOf (.spongeUpdate f) s = .ok (noEffect s) := by
      simp only [effectOf, spongeUpdateEffect_eq, checkedUpdate_empty hs.S hp hd]
      rfl
    exact exec_ok he hpay (.inl rfl)
  · intro hp
    have he : effectOf (.hmacUpdate f) s = .ok (noEffect s) := by
      simp only [effectOf, hmacUpdateEffect_eq, checkedUpdate_empty hs.HM.inner hp hd]
      rfl
    exact exec_ok he hpay (.inl rfl)

/-! ## What a command answers depends on its own context only

What the host sees of a command is its response, its output and, of the contexts, a part `view`. Two outcomes of a command's
checks that look the same through `view` give, in states that agree on the channels and through `view`, the same
response, the same output and the same view. -/

/-- What an effect shows: the part of the contexts that `view` reads, and the bytes it emits. -/
def Effect.seen {α : Type} (view : Sponge → Hmac → α) (e : Effect) : α × List Byte := (view e.S e.HM, e.out)

/-- Two states that agree on the payload, on what was emitted and answered, and on whether the host takes output. -/
structure ChannelsAgree (s1 s2 : State) : Prop where
  din : s1.din = s2.din
  kin : s1.kin = s2.kin
  dout : s1.dout = s2.dout
  resp : s1.resp = s2.resp
  outReady : s1.outReady = s2.outReady

/-- Two states that look the same from outside and through `view`. -/
def SeenAlike {α : Type} (view : Sponge → Hmac → α) (t1 t2 : State) : Prop :=
  view t1.S t1.HM = view t2.S t2.HM ∧ t1.resp = t2.resp ∧ t1.dout = t2.dout

/-- Commands whose outcomes look the same through `view` wait in both states, or fail or complete alike in both. -/
theorem runCommand_seenAlike {α : Type} (view : Sponge → Hmac → α) {f : Fields} {s1 s2 t1 t2 : State}
    {r1 r2 : Except Status Effect} (hc : ChannelsAgree s1 s2) (hv : view s1.S s1.HM = view s2.S s2.HM)
    (hr : r1.map (Effect.seen view) = r2.map (Effect.seen view))
    (h1 : runCommand f s1 r1 = .next t1) (h2 : runCommand f s2 r2 = .next t2) : SeenAlike view t1 t2 := by
  have hsame : SeenAlike view s1 s2 := ⟨hv, hc.resp, hc.dout⟩
  have hpay : PayloadThere f s1 ↔ PayloadThere f s2 := by simp [PayloadThere, hc.din, hc.kin]
  by_cases hp : PayloadThere f s1
  · have hp2 := hpay.1 hp
    match r1, r2, hr with
    | .error st, .error _, rfl =>
      rw [runCommand_error hp] at h1
      rw [runCommand_error hp2] at h2
      cases h1
      cases h2
      exact ⟨hv, by simp [afterFailure, hc.resp], by simp [afterFailure, hc.dout]⟩
    | .ok e1, .ok e2, hr =>
      obtain ⟨hview, hout⟩ : view e1.S e1.HM = view e2.S e2.HM ∧ e1.out = e2.out := by
        simpa [Except.map, Effect.seen] using hr
      by_cases ho : e1.out = [] ∨ s1.outReady = true
      · rw [runCommand_ok hp e1 ho] at h1
        rw [runCommand_ok hp2 e2 (hout ▸ hc.outReady ▸ ho)] at h2
        cases h1
        cases h2
        exact ⟨hview, by simp [hc.resp], by simp [hc.dout, hout]⟩
      · simp only [not_or, Bool.not_eq_true] at ho
        obtain ⟨hne, hnr⟩ := ho
        rw [runCommand_waits_for_output e1 hne hnr] at h1
        rw [runCommand_waits_for_output e2 (hout ▸ hne) (hc.outReady ▸ hnr)] at h2
        cases h1
        cases h2
        exact hsame
  · rw [runCommand_waits_for_payload hp] at h1
    rw [runCommand_waits_for_payload (mt hpay.2 hp)] at h2
    cases h1
    cases h2
    exact hsame

/-- The `SPONGE_*` commands read no context but `S`. -/
theorem effectOf_sponge_seen {i : Instr} (hi : ∃ f, i = .spongeInit f ∨ i = .spongeUpdate f ∨ i = .spongeFinal f)
    {s1 s2 : State} (hc : ChannelsAgree s1 s2) (hS : s1.S = s2.S) :
    (effectOf i s1).map (Effect.seen fun X _ => X) = (effectOf i s2).map (Effect.seen fun X _ => X) := by
  obtain ⟨f, rfl | rfl | rfl⟩ := hi
  · simp only [effectOf, spongeInitEffect_eq]
    cases modeOfTag f.mode <;> rfl
  · simp only [effectOf, spongeUpdateEffect_eq, dataOperand, hc.din, hS]
    cases checkedUpdate s2.S (if f.ibp then some (s2.din.take f.dlen) else none) f.dlen <;> rfl
  · simp only [effectOf, spongeFinalEffect_eq, hS]
    split
    · rfl
    · split <;> rfl

/-- The streaming HMAC commands read no context but `HM`. -/
theorem effectOf_hmac_seen {i : Instr} (hi : ∃ f, i = .hmacInit f ∨ i = .hmacUpdate f ∨ i = .hmacFinal f)
    {s1 s2 : State} (hc : ChannelsAgree s1 s2) (hHM : s1.HM = s2.HM) :
    (effectOf i s1).map (Effect.seen fun _ Y => Y) = (effectOf i s2).map (Effect.seen fun _ Y => Y) := by
  obtain ⟨f, rfl | rfl | rfl⟩ := hi
  · simp only [effectOf, hmacInitEffect_eq, hc.kin]
    split
    · rfl
    · cases modeOfTag f.mode <;> rfl
  · simp only [effectOf, hmacUpdateEffect_eq, dataOperand, hc.din, hHM]
    cases checkedUpdate s2.HM.inner (if f.ibp then some (s2.din.take f.dlen) else none) f.dlen <;> rfl
  · simp only [effectOf, hmacFinalEffect_eq, hHM]
    split
    · rfl
    · split <;> rfl

/-- The one-shot commands read no context. -/
theorem effectOf_oneShot_seen {i : Instr} (hi : ∃ f, i = .hash f ∨ i = .hmac f) {s1 s2 : State}
    (hc : ChannelsAgree s1 s2) :
    (effectOf i s1).map (Effect.seen fun _ _ => ()) = (effectOf i s2).map (Effect.seen fun _ _ => ()) := by
  obtain ⟨f, rfl | rfl⟩ := hi
  · simp only [effectOf, hashEffect_eq, hc.din]
    split
    · rfl
    · cases modeOfTag f.mode <;> rfl
  · simp only [effectOf, hmacEffect_eq, hc.din, hc.kin]
    split
    · rfl
    · cases modeOfTag f.mode with
      | none => rfl
      | some m =>
        dsimp only
        split
        · rfl
        · split <;> rfl

/-- Settles O51: the outcome of the checks and the effect look the same through the command's own context. -/
theorem contextsDoNotInterfere : Obligations.ContextsDoNotInterfere := by
  intro i s1 s2 t1 t2 hdin hkin hdout hresp hready h1 h2
  have hc : ChannelsAgree s1 s2 := ⟨hdin, hkin, hdout, hresp, hready⟩
  rw [exec_eq_runCommand] at h1 h2
  refine ⟨fun hi hS => ?_, fun hi hHM => ?_, fun hi => ?_⟩
  · exact runCommand_seenAlike (fun X _ => X) hc hS (effectOf_sponge_seen hi hc hS) h1 h2
  · exact runCommand_seenAlike (fun _ Y => Y) hc hHM (effectOf_hmac_seen hi hc hHM) h1 h2
  · exact (runCommand_seenAlike (fun _ _ => ()) hc rfl (effectOf_oneShot_seen hi hc) h1 h2).2

/-! ## A message streamed through `S` -/

/-- The hash of a message is its unfolded form: the padded blocks absorbed in order, then the first bytes of the state
(41_sponge.md R98). -/
theorem hashOf_eq_hashUnfolded (m : Mode) (M : List Byte) : hashOf m M = hashUnfolded m M := by
  have hupd := updateInstance_eq (X := initInstance m) (modeBlockSize_pos m) M
  unfold hashOf
  rw [finalizeInstance_eq (Nat.le_of_lt (modeDigestLength_lt_blockSize m)), hupd]
  simp [hashUnfolded, absorbBlocks]

/-- `k` steps of the machine, on its own type of states. -/
def runSteps (k : Nat) (s : State) : Host.Outcome State Fault Refusal := Host.Core.run Sys2Proof.core k s

theorem runSteps_zero (s : State) : runSteps 0 s = .next s := rfl

theorem runSteps_succ {s t : State} (h : step s = .next t) (k : Nat) : runSteps (k + 1) s = runSteps k t := by
  have hcore : Sys2Proof.core.step s = .next t := h
  simp only [runSteps, Host.Core.run, hcore]
  rfl

/-- `s` while a message is streamed through `S`: `X` is in `S`, the words `cmd` and the bytes `din` are still offered, and
`n` more commands have answered `OK`. -/
def streaming (s : State) (X : Sponge) (cmd : List CmdWord) (din : List Byte) (n : Nat) : State :=
  { s with S := X, cmd := cmd, din := din, resp := s.resp ++ List.replicate n .ok }

/-- Every state is the start of a stream. -/
theorem streaming_start (s : State) : streaming s s.S s.cmd s.din 0 = s := by simp [streaming]

section
variable {s : State} {X : Sponge} {f : Fields} {rest : List CmdWord} {din : List Byte}

theorem payloadThere_of_absent (hi : f.ibp = false) (hk : f.kbp = false) (s : State) : PayloadThere f s := by
  simp [PayloadThere, hi, hk]

/-- A command that announces no payload, leaves `X'` in `S` and answers `OK` takes its word only. -/
theorem afterCommand_streaming (hi : f.ibp = false) (hk : f.kbp = false) (X' : Sponge) (w : CmdWord) (n : Nat)
    (out : List Byte) :
    afterCommand f (streaming s X (w :: rest) din n) X' s.HM out .ok =
      { streaming s X' rest din (n + 1) with dout := s.dout ++ out } := by
  simp [afterCommand, streaming, hi, hk, List.replicate_succ']

theorem step_spongeInit {m : Mode} (hr : s.rst = false) (hw : f.wellFormed = true) (hm : modeOfTag f.mode = some m)
    (hi : f.ibp = false) (hk : f.kbp = false) (n : Nat) :
    step (streaming s X (encode (.spongeInit f) :: rest) din n) =
      .next (streaming s (initInstance m) rest din (n + 1)) := by
  have he : effectOf (.spongeInit f) (streaming s X (encode (.spongeInit f) :: rest) din n) =
      .ok { S := initInstance m, HM := s.HM, out := [] } := by
    simp only [effectOf, spongeInitEffect_eq, hm]
    rfl
  rw [step_ok he hr rfl hw (payloadThere_of_absent hi hk _) (.inl rfl)]
  simp only [Instr.fields, afterCommand_streaming hi hk, List.append_nil]
  rfl

theorem step_spongeUpdate {c : List Byte} (hr : s.rst = false) (hp : X.phase = .absorbing) (hlen : c.length < 2 ^ 24)
    (n : Nat) :
    step (streaming s X (encode (.spongeUpdate (dataFields c)) :: rest) (c ++ din) n) =
      .next (streaming s (updateInstance X c) rest din (n + 1)) := by
  have hw : (dataFields c).wellFormed = true := (wellFormed_iff _).2 ⟨Nat.two_pow_pos 4, hlen, Nat.two_pow_pos 24⟩
  have he : effectOf (.spongeUpdate (dataFields c))
      (streaming s X (encode (.spongeUpdate (dataFields c)) :: rest) (c ++ din) n) =
      .ok { S := updateInstance X c, HM := s.HM, out := [] } := by
    simp [effectOf, spongeUpdateEffect_eq, dataOperand, dataFields, streaming, checkedUpdate_some hp, noEffect]
  rw [step_ok he hr rfl hw (by simp [PayloadThere, Instr.fields, dataFields, streaming]) (.inl rfl)]
  simp [Instr.fields, afterCommand, dataFields, streaming, List.replicate_succ']

theorem step_spongeFinal (hr : s.rst = false) (hready : s.outReady = true) (hp : X.phase = .absorbing)
    (hw : f.wellFormed = true) (ho : f.obp = true) (hi : f.ibp = false) (hk : f.kbp = false) (n : Nat) :
    step (streaming s X (encode (.spongeFinal f) :: rest) din n) =
      .next { streaming s (finalizeInstance X).2 rest din (n + 1) with dout := s.dout ++ (finalizeInstance X).1 } := by
  have he : effectOf (.spongeFinal f) (streaming s X (encode (.spongeFinal f) :: rest) din n) =
      .ok { S := (finalizeInstance X).2, HM := s.HM, out := (finalizeInstance X).1 } := by
    simp [effectOf, spongeFinalEffect_eq, streaming, hp, ho, noEffect]
  rw [step_ok he hr rfl hw (payloadThere_of_absent hi hk _) (.inr hready)]
  simp only [Instr.fields, afterCommand_streaming hi hk]

end

/-- One `SPONGE_UPDATE` for each chunk updates `S` by the chunks in order, whatever is run after them. -/
theorem runSteps_spongeUpdates {s : State} (hr : s.rst = false) (rest : List CmdWord) (din : List Byte) (k : Nat)
    (chunks : List (List Byte)) (hlen : ∀ c ∈ chunks, c.length < 2 ^ 24) :
    ∀ (X : Sponge) (n : Nat), X.phase = .absorbing →
      runSteps (chunks.length + k) (streaming s X
          ((chunks.map fun c => encode (.spongeUpdate (dataFields c))) ++ rest) (chunks.flatten ++ din) n) =
        runSteps k (streaming s (chunks.foldl updateInstance X) rest din (n + chunks.length)) := by
  induction chunks with
  | nil => simp
  | cons c cs ih =>
    intro X n hp
    obtain ⟨hc, hcs⟩ := List.forall_mem_cons.1 hlen
    rw [List.length_cons, Nat.add_right_comm, List.map_cons, List.cons_append, List.flatten_cons, List.append_assoc,
      runSteps_succ (step_spongeUpdate hr hp hc n), ih hcs (updateInstance X c) (n + 1) hp, List.foldl_cons, Nat.add_assoc n 1, Nat.add_comm 1]

/-- Settles O59: INIT leaves the fresh sponge, the updates are one update by the concatenation, FINAL emits its hash. -/
theorem streamedDigest : Obligations.StreamedDigest := by
  intro m fi ff chunks s restCmd restDin hwi hwf hm hii hik hfo hfi hfk hlen hr hready hc hd
  have hfold := foldl_updateInstance chunks (X := initInstance m) rfl (modeBlockSize_pos m)
  calc runSteps (chunks.length + 1 + 1) s
      = runSteps (chunks.length + 1 + 1) (streaming s s.S (encode (.spongeInit fi) ::
          ((chunks.map fun c => encode (.spongeUpdate (dataFields c))) ++ encode (.spongeFinal ff) :: restCmd))
          (chunks.flatten ++ restDin) 0) := by
        rw [← List.cons_append, ← hc, ← hd, streaming_start]
    _ = runSteps (0 + 1) (streaming s (updateInstance (initInstance m) chunks.flatten)
          (encode (.spongeFinal ff) :: restCmd) restDin (0 + 1 + chunks.length)) := by
        rw [runSteps_succ (step_spongeInit hr hwi hm hii hik 0),
          runSteps_spongeUpdates hr _ _ _ chunks hlen _ _ rfl, hfold]
    _ = .next _ := runSteps_succ (step_spongeFinal hr hready rfl hwf hfo hfi hfk _) 0
    _ = _ := by
        have hcount : 0 + 1 + chunks.length + 1 = chunks.length + 2 := by omega
        rw [← hashOf_eq_hashUnfolded, hcount]
        rfl

end Sys2Proof.Proofs

/-! # Encoding: words and commands, one word a step, the output of a command, ignored fields (30_encoding.md) -/

namespace Sys2Proof.Proofs

open Sys2Proof.Machine Sys2Proof.Laws

/-! ## The decoder and the encoder are inverse -/

/-- Settles O1: the word of a well-formed command holds each field at its place, and the decoder reads it there. -/
theorem decodeOfEncode : Obligations.DecodeOfEncode := fun _ => decode_encode

/-- The opcode map answers a command exactly when it has the opcode and the fields asked for (30_encoding.md R52). -/
theorem instrOf_eq_some_iff {op : Nat} {f : Fields} {i : Instr} :
    instrOf op f = some i ↔ i.opcode = op ∧ i.fields = f := by
  constructor
  · intro h
    unfold instrOf at h
    split at h <;> cases h <;> exact ⟨rfl, rfl⟩
  · rintro ⟨rfl, rfl⟩
    cases i <;> rfl

/-- A word decodes to a command exactly when the command has the word's `OP` and fields, and `RSV` is 0 (R56, R62). -/
theorem decode_eq_ok_iff {w : CmdWord} {i : Instr} :
    decode w = .ok i ↔ i.opcode = bitField w 0 4 ∧ i.fields = fieldsOf w ∧ bitField w 11 5 = 0 := by
  rw [← and_assoc, ← instrOf_eq_some_iff]
  unfold decode
  cases instrOf (bitField w 0 4) (fieldsOf w) with
  | none => simp
  | some j => by_cases hrsv : bitField w 11 5 = 0 <;> simp [hrsv]

theorem bitField_lt (w : CmdWord) (lo len : Nat) : bitField w lo len < 2 ^ len := Nat.mod_lt _ (Nat.two_pow_pos len)

/-- The fields of any word fit their bits (30_encoding.md R51). -/
theorem fieldsOf_wellFormed (w : CmdWord) : (fieldsOf w).wellFormed = true :=
  (wellFormed_iff _).2 ⟨bitField_lt w 4 4, bitField_lt w 16 24, bitField_lt w 40 24⟩

/-- A presence bit read from a word is put back as it was. -/
theorem presenceBit_bitField (w : CmdWord) (lo : Nat) : presenceBit (bitField w lo 1 == 1) = bitField w lo 1 := by
  have hlt : bitField w lo 1 < 2 := bitField_lt w lo 1
  obtain h | h : bitField w lo 1 = 0 ∨ bitField w lo 1 = 1 := by omega
  · simp [h, presenceBit]
  · simp [h, presenceBit]

/-- A word is the sum of its eight bit ranges, each at its place (30_encoding.md R50). -/
theorem toNat_eq_sum_bitFields (w : CmdWord) :
    w.toNat = bitField w 0 4 + 2 ^ 4 * bitField w 4 4 + 2 ^ 8 * bitField w 8 1 + 2 ^ 9 * bitField w 9 1
      + 2 ^ 10 * bitField w 10 1 + 2 ^ 11 * bitField w 11 5 + 2 ^ 16 * bitField w 16 24 + 2 ^ 40 * bitField w 40 24 := by
  have hlt := w.isLt
  simp only [bitField]
  omega

/-- Settles O2: the command has the word's fields, and the word, its `RSV` being 0, is the sum of what lies at their places. -/
theorem encodeOfDecode : Obligations.EncodeOfDecode := by
  intro w i h
  obtain ⟨hop, hf, hrsv⟩ := decode_eq_ok_iff.1 h
  have hwf : i.wellFormed = true := by
    rw [Instr.wellFormed, hf]
    exact fieldsOf_wellFormed w
  refine ⟨hwf, BitVec.eq_of_toNat_eq ?_⟩
  rw [encode_toNat hwf, toNat_eq_sum_bitFields w, hop, hf, hrsv]
  simp only [fieldsOf, presenceBit_bitField, Nat.mul_zero, Nat.add_zero]

/-! ## The bits of a word -/

/-- The bit range `w[hi:lo]` as a number (00_scope.md R6). -/
theorem extractLsb_toNat_eq_bitField (w : CmdWord) (hi lo : Nat) :
    (w.extractLsb hi lo).toNat = bitField w lo (hi - lo + 1) := by
  rw [BitVec.extractLsb_toNat, Nat.shiftRight_eq_div_pow, bitField]

theorem getLsbD_eq_bitField (w : CmdWord) (n : Nat) : w.getLsbD n = (bitField w n 1 == 1) := by
  rw [BitVec.getLsbD, Nat.testBit_eq_decide_div_mod_eq, bitField, Nat.pow_one, Bool.beq_eq_decide_eq]

/-- Settles O4: a bit range of the word is the number the decoder computes for it. -/
theorem fieldsStandAtTheirBits : Obligations.FieldsStandAtTheirBits := by
  intro w
  simp only [extractLsb_toNat_eq_bitField, getLsbD_eq_bitField]
  exact ⟨rfl, rfl, rfl, rfl, rfl, rfl⟩

/-- `OP` as bits of the word is the decoder's number. -/
theorem extractLsb_toNat_eq_op (w : CmdWord) : (w.extractLsb 3 0).toNat = bitField w 0 4 :=
  extractLsb_toNat_eq_bitField w 3 0

/-- `RSV` as bits of the word is 0 exactly when the decoder's number is. -/
theorem extractLsb_eq_zero_iff (w : CmdWord) : w.extractLsb 15 11 = 0 ↔ bitField w 11 5 = 0 := by
  rw [← BitVec.toNat_inj, extractLsb_toNat_eq_bitField]
  rfl

theorem opcode_bounds (i : Instr) : 1 ≤ i.opcode ∧ i.opcode ≤ 8 := by
  cases i <;> simp [Instr.opcode]

/-- Every opcode from 1 to 8 has a row in the opcode map (30_encoding.md R52). -/
theorem exists_instr_of_opcode {op : Nat} (h1 : 1 ≤ op) (h8 : op ≤ 8) (f : Fields) :
    ∃ i : Instr, i.opcode = op ∧ i.fields = f := by
  interval_cases op
  · exact ⟨.spongeInit f, rfl, rfl⟩
  · exact ⟨.spongeUpdate f, rfl, rfl⟩
  · exact ⟨.spongeFinal f, rfl, rfl⟩
  · exact ⟨.hash f, rfl, rfl⟩
  · exact ⟨.hmacInit f, rfl, rfl⟩
  · exact ⟨.hmacUpdate f, rfl, rfl⟩
  · exact ⟨.hmacFinal f, rfl, rfl⟩
  · exact ⟨.hmac f, rfl, rfl⟩

/-- A word whose `OP` is no opcode or whose `RSV` is not 0 is illegal (30_encoding.md R56). -/
theorem decode_error_of_illegal {w : CmdWord}
    (h : (w.extractLsb 3 0).toNat = 0 ∨ 9 ≤ (w.extractLsb 3 0).toNat ∨ w.extractLsb 15 11 ≠ 0) :
    ∃ e, decode w = .error e := by
  cases hd : decode w with
  | error e => exact ⟨e, rfl⟩
  | ok i =>
    obtain ⟨hop, -, hrsv⟩ := decode_eq_ok_iff.1 hd
    have hbounds := opcode_bounds i
    rw [Ne, extractLsb_eq_zero_iff, extractLsb_toNat_eq_op] at h
    omega

/-- Settles O3: the opcode map has the rows 1 to 8 and no others. -/
theorem everyWordHasOneVerdict : Obligations.EveryWordHasOneVerdict := by
  intro w
  refine ⟨fun ⟨h1, h8, hrsv⟩ => ?_, decode_error_of_illegal⟩
  obtain ⟨i, hop, hf⟩ := exists_instr_of_opcode h1 h8 (fieldsOf w)
  have hd : decode w = .ok i :=
    decode_eq_ok_iff.2 ⟨hop.trans (extractLsb_toNat_eq_op w), hf, (extractLsb_eq_zero_iff w).1 hrsv⟩
  exact ⟨i, hd, hop, hf⟩

/-- A mask moved up by `n` bits masks what stands from bit `n` on. -/
theorem and_shiftLeft_eq (x m n : Nat) : x &&& m <<< n = (x >>> n &&& m) <<< n := by
  apply Nat.eq_of_testBit_eq
  intro j
  by_cases hj : n ≤ j <;> simp [hj]

/-- The mask 0xF80F keeps `OP` and `RSV` and clears every other bit (30_encoding.md R52). -/
theorem toNat_and_mask (w : CmdWord) : (w &&& 0xF80F).toNat = 2 ^ 11 * bitField w 11 5 + bitField w 0 4 := by
  have hsplit : (0xF80F : Nat) = (2 ^ 5 - 1) <<< 11 ||| (2 ^ 4 - 1) := by decide
  have hhigh : w.toNat &&& (2 ^ 5 - 1) <<< 11 = bitField w 11 5 <<< 11 := by
    rw [and_shiftLeft_eq, Nat.and_two_pow_sub_one_eq_mod, Nat.shiftRight_eq_div_pow, bitField]
  have hlow : w.toNat &&& (2 ^ 4 - 1) = bitField w 0 4 := by
    rw [Nat.and_two_pow_sub_one_eq_mod, bitField, Nat.pow_zero, Nat.div_one]
  have hlt : bitField w 0 4 < 2 ^ 11 := Nat.lt_trans (bitField_lt w 0 4) (by decide)
  calc (w &&& 0xF80F).toNat = w.toNat &&& 0xF80F := BitVec.toNat_and w 0xF80F
    _ = bitField w 11 5 <<< 11 ||| bitField w 0 4 := by rw [hsplit, Nat.and_or_distrib_left, hhigh, hlow]
    _ = 2 ^ 11 * bitField w 11 5 + bitField w 0 4 := by
      rw [← Nat.shiftLeft_add_eq_or_of_lt hlt, Nat.shiftLeft_eq, Nat.mul_comm]

/-- A row of the opcode map: under the mask a word is the opcode of a command with its fields exactly when it decodes to it. -/
theorem opcodeMapRow {w : CmdWord} (i : Instr) (hf : i.fields = fieldsOf w) :
    w &&& 0xF80F = BitVec.ofNat 64 i.opcode ↔ decode w = .ok i := by
  have hop := OpcodeField.opcode_lt i
  have hlt : bitField w 0 4 < 2 ^ 4 := bitField_lt w 0 4
  rw [decode_eq_ok_iff, ← BitVec.toNat_inj, toNat_and_mask, BitVec.toNat_ofNat]
  simp only [hf, true_and]
  omega

/-- Settles O5: the eight rows are one row for each command. -/
theorem opcodeMapRows : Obligations.OpcodeMapRows := fun w =>
  ⟨opcodeMapRow (.spongeInit (fieldsOf w)) rfl, opcodeMapRow (.spongeUpdate (fieldsOf w)) rfl,
    opcodeMapRow (.spongeFinal (fieldsOf w)) rfl, opcodeMapRow (.hash (fieldsOf w)) rfl,
    opcodeMapRow (.hmacInit (fieldsOf w)) rfl, opcodeMapRow (.hmacUpdate (fieldsOf w)) rfl,
    opcodeMapRow (.hmacFinal (fieldsOf w)) rfl, opcodeMapRow (.hmac (fieldsOf w)) rfl⟩

/-- Settles O6: the decoder evaluated on the six words. -/
theorem specWordsDecode : Obligations.SpecWordsDecode := ⟨rfl, rfl, rfl, rfl, rfl, rfl⟩

/-! ## One word a step -/

/-- Settles O8: the word decodes to no command, so the step is the answer to an illegal word. -/
theorem illegalWordsAreAnswered : Obligations.IllegalWordsAreAnswered := by
  intro s w rest hr hc hw hpay
  obtain ⟨e, he⟩ := decode_error_of_illegal hw
  have hstep : step s = illegalCommand w s := by simp [step, hr, nextWord, hc, he]
  exact ⟨hstep.trans (runCommand_error hpay _), rfl⟩

/-- A command waits, or takes its word and payload and gives one response. -/
theorem exec_waits_or_takes {i : Instr} {s t : State} (h : exec i s = .next t) :
    t = s ∨ ∃ X Y out st, PayloadThere i.fields s ∧ t = afterCommand i.fields s X Y out st := by
  obtain ht | ⟨hpay, -, ht⟩ | ⟨e, hpay, -, -, ht⟩ := exec_cases h
  · exact .inl ht
  · exact .inr ⟨_, _, _, _, hpay, ht⟩
  · exact .inr ⟨_, _, _, _, hpay, ht⟩

/-- Settles O14: the payload a command takes is the one its word announces, and so is an illegal word's. -/
theorem stepTakesOneCommand : Obligations.StepTakesOneCommand := by
  refine ⟨fun s t hr h => ?_, rfl, rfl, rfl, rfl, rfl, rfl, rfl, fun st => by cases st <;> decide⟩
  obtain ⟨hrst, -⟩ | ⟨-, -, ht⟩ | ⟨w, rest, i, -, hc, hd, hx⟩ | ⟨w, rest, r, -, hc, -, hx⟩ := step_cases h
  · simp [hr] at hrst
  · exact .inl ht
  · obtain ht | ⟨X, Y, out, st, hpay, ht⟩ := exec_waits_or_takes hx
    · exact .inl ht
    · rw [decode_fields hd] at hpay ht
      exact .inr ⟨w, rest, X, Y, out, st, hc, hpay, ht, by simp [ht, hc]⟩
  · obtain ht | ⟨hpay, ht⟩ := illegalCommand_cases hx
    · exact .inl ht
    · exact .inr ⟨w, rest, _, _, _, _, hc, hpay, ht, by simp [ht, afterFailure, hc]⟩

/-! ## The output of a command -/

/-- An initialised sponge emits its digest length in bytes (41_sponge.md R96, R97). -/
theorem finalizeInstance_out_length {X : Sponge} (h : modeFieldsAgree X) :
    (finalizeInstance X).1.length = X.digestLength := by
  rw [finalizeInstance_eq (modeFieldsAgree_digest_le h), stateBytes_length]

theorem hmacFinalInstance_out_length (Y : Hmac) : (hmacFinalInstance Y).1.length = modeDigestLength Y.mode := by
  rw [hmacFinalInstance_out, hashOf_length]

/-- A command that succeeds emits the digest length of its mode, or nothing if it is no digest command (30_encoding.md R59). -/
theorem success_out_length {s : State} {i : Instr} {e : Effect} (hs : Inv s) (h : Success s i e) :
    e.out.length = outputLength i s := by
  cases h with
  | spongeFinal hp ho => exact finalizeInstance_out_length (hs.S.fields (by simp [hp]))
  | hash hi ho hm => simp [outputLength, hm, hashOf_length]
  | hmacFinal hp ho =>
    have hinit : s.HM.inner.phase ≠ .uninit := by simp [hp]
    obtain ⟨-, -, hdigest, -⟩ := hs.HM.inner.fields hinit
    rw [hmacFinalInstance_out_length, hs.HM.mode_eq hinit, ← hdigest]
    rfl
  | hmac hk hm hi ho => simp [outputLength, hm, hmacFinalInstance_out_length]
  | hmacAbsent hk hm hi hd ho => simp [outputLength, hm, hmacFinalInstance_out_length]
  | _ => rfl

/-- Settles O48: a command that waits gives no response, one that fails gives another than `OK`, and neither emits. -/
theorem outputIsAllOrNothing : Obligations.OutputIsAllOrNothing := by
  intro i s t hs h
  obtain rfl | ⟨-, hst, rfl⟩ | ⟨e, -, he, -, rfl⟩ := exec_cases h
  · exact ⟨[], by simp, by simp, by simp⟩
  · exact ⟨[], by simp [afterFailure], by simp [afterFailure, hst], by simp⟩
  · exact ⟨e.out, rfl, fun _ => success_out_length hs he, fun hne => absurd rfl hne⟩

/-! ## Fields a command does not use -/

theorem dataOperand_congr {f g : Fields} (hi : f.ibp = g.ibp) (hd : f.dlen = g.dlen) (s : State) :
    dataOperand f s = dataOperand g s := by
  simp only [dataOperand, hi, hd]

/-- `KLEN` matters only where the key is present (93 U20). -/
theorem keyOperand_congr {f g : Fields} (hk : f.kbp = g.kbp) (hl : f.kbp = true → f.klen = g.klen) (s : State) :
    keyOperand f s = keyOperand g s := by
  unfold keyOperand
  rw [← hk]
  split
  · rw [hl ‹_›]
  · rfl

/-- The checks and the effect of a command read the fields it uses only (30_encoding.md R57). -/
theorem effectOf_congr {i j : Instr} (h : usedFieldsAgree i j) (s : State) : effectOf i s = effectOf j s := by
  match i, j, h with
  | .spongeInit f, .spongeInit g, hm => simp only [effectOf, spongeInitEffect, show f.mode = g.mode from hm]
  | .spongeUpdate f, .spongeUpdate g, ⟨hi, hd⟩ =>
    simp only [effectOf, spongeUpdateEffect, dataOperand_congr hi hd, hd]
  | .spongeFinal f, .spongeFinal g, ho => simp only [effectOf, spongeFinalEffect, show f.obp = g.obp from ho]
  | .hash f, .hash g, ⟨hm, hi, hd, ho⟩ => simp only [effectOf, hashEffect, dataOperand_congr hi hd, hm, ho]
  | .hmacInit f, .hmacInit g, ⟨hm, hk, hl⟩ => simp only [effectOf, hmacInitEffect, keyOperand_congr hk hl, hm]
  | .hmacUpdate f, .hmacUpdate g, ⟨hi, hd⟩ =>
    simp only [effectOf, hmacUpdateEffect, dataOperand_congr hi hd, hd]
  | .hmacFinal f, .hmacFinal g, ho => simp only [effectOf, hmacFinalEffect, show f.obp = g.obp from ho]
  | .hmac f, .hmac g, ⟨hm, hi, hd, hk, hl, ho⟩ =>
    simp only [effectOf, hmacEffect, keyOperand_congr hk hl, dataOperand_congr hi hd, hm, hd, ho]

/-- Settles O52: one outcome of the checks and effect, ended by each command with its own payload. -/
theorem ignoredFieldsHaveNoEffect : Obligations.IgnoredFieldsHaveNoEffect := by
  intro i j s hij hpi hpj hready
  rw [exec_eq_runCommand, exec_eq_runCommand, effectOf_congr hij]
  cases effectOf j s with
  | error st => exact ⟨s.S, s.HM, [], st, runCommand_error hpi st, runCommand_error hpj st⟩
  | ok e => exact ⟨e.S, e.HM, e.out, .ok, runCommand_ok hpi e (.inr hready), runCommand_ok hpj e (.inr hready)⟩

end Sys2Proof.Proofs

/-! # The permutation: rotation, the five step mappings, their tables and generators, bijectivity (40_permutation.md) -/

namespace Sys2Proof.Proofs

open Sys2Proof.Machine

/-! ## Rotation of a lane -/

/-- The read form of the rotation: bit `i` comes from bit `i - n`, mod 64 (00_scope.md R7). -/
theorem getLsbD_rotl64 (a : Lane) (n : Nat) {i : Nat} (hi : i < 64) :
    (rotl64 a n).getLsbD i = a.getLsbD ((i + (64 - n % 64)) % 64) := by
  rw [rotl64, BitVec.getLsbD_rotateLeft]
  by_cases hlt : i < n % 64
  · rw [show (i + (64 - n % 64)) % 64 = 64 - n % 64 + i by omega]
    simp [hlt]
  · rw [show (i + (64 - n % 64)) % 64 = i - n % 64 by omega]
    simp [hlt, hi]

/-- The write form of the rotation: bit `i` moves to bit `i + n`, mod 64 (00_scope.md R7). -/
theorem getLsbD_rotl64_add_mod (a : Lane) (n : Nat) {i : Nat} (hi : i < 64) :
    (rotl64 a n).getLsbD ((i + n) % 64) = a.getLsbD i := by
  rw [getLsbD_rotl64 a n (by omega), show ((i + n) % 64 + (64 - n % 64)) % 64 = i by omega]

theorem rotl64_mod (a : Lane) (n : Nat) : rotl64 a (n % 64) = rotl64 a n := by
  simp [rotl64, BitVec.rotateLeft]

theorem rotl64_rotl64 (a : Lane) (m n : Nat) : rotl64 (rotl64 a m) n = rotl64 a (m + n) :=
  BitVec.eq_of_getLsbD_eq fun i hi => by
    rw [getLsbD_rotl64 _ _ hi, getLsbD_rotl64 _ _ (by omega), getLsbD_rotl64 _ _ hi]
    congr 1
    omega

theorem rotl64_xor (a b : Lane) (n : Nat) : rotl64 (a ^^^ b) n = rotl64 a n ^^^ rotl64 b n :=
  BitVec.eq_of_getLsbD_eq fun i hi => by simp only [BitVec.getLsbD_xor, getLsbD_rotl64 _ _ hi]

/-- Rotations by whole turns change nothing. -/
theorem rotl64_of_mod_eq_zero (a : Lane) {n : Nat} (h : n % 64 = 0) : rotl64 a n = a :=
  BitVec.eq_of_getLsbD_eq fun i hi => by
    rw [getLsbD_rotl64 a n hi, show (i + (64 - n % 64)) % 64 = i by omega]

theorem rotl64_injective (n : Nat) : Function.Injective (rotl64 · n) := fun a b h =>
  BitVec.eq_of_getLsbD_eq fun i hi => by
    rw [← getLsbD_rotl64_add_mod a n hi, ← getLsbD_rotl64_add_mod b n hi, show rotl64 a n = rotl64 b n from h]

/-- Settles O15: each law from the bit forms of the rotation. -/
theorem rotationLaws : Obligations.RotationLaws := fun a b m n _ _ =>
  ⟨rotl64_of_mod_eq_zero a rfl, rotl64_xor a b n, by rw [rotl64_rotl64, rotl64_mod],
    fun _ => getLsbD_rotl64_add_mod a n⟩

/-! ## Lanes by their coordinates -/

theorem laneAt_congr (A : Lanes) {x x' y y' : Nat} (hx : x % 5 = x' % 5) (hy : y % 5 = y' % 5) :
    laneAt A x y = laneAt A x' y' := by
  simp only [laneAt, hx, hy]

theorem laneAt_ofFn (f : Fin 25 → Lane) (x y : Nat) :
    laneAt (Vector.ofFn f) x y = f ⟨x % 5 + 5 * (y % 5), by omega⟩ := Vector.getElem_ofFn _

theorem getElem_eq_laneAt (A : Lanes) {i : Nat} (hi : i < 25) : A[i] = laneAt A i (i / 5) := by
  simp only [laneAt, show i % 5 + 5 * (i / 5 % 5) = i by omega]

theorem lanes_ext_index {A B : Lanes} (h : ∀ i : Fin 25, A[i] = B[i]) : A = B := Vector.ext fun i hi => h ⟨i, hi⟩

/-- A state is its 25 lanes. -/
theorem lanes_ext {A B : Lanes} (h : ∀ x y, laneAt A x y = laneAt B x y) : A = B :=
  Vector.ext fun i hi => by rw [getElem_eq_laneAt A hi, getElem_eq_laneAt B hi, h]

/-! ## Theta -/

theorem columnParity_congr (A : Lanes) {x x' : Nat} (h : x % 5 = x' % 5) : columnParity A x = columnParity A x' := by
  simp only [columnParity, laneAt_congr A h rfl]

/-- Theta lane by lane (R73). -/
theorem laneAt_theta (A : Lanes) (x y : Nat) :
    laneAt (theta A) x y =
      laneAt A x y ^^^ (columnParity A (x + 4) ^^^ rotl64 (columnParity A (x + 1)) 1) := by
  simp only [theta, laneAt_ofFn, thetaEffect, columnParities, Vector.getElem_ofFn, Fin.getElem_fin]
  rw [columnParity_congr A (show ((x % 5 + 5 * (y % 5)) % 5 + 4) % 5 % 5 = (x + 4) % 5 by omega),
    columnParity_congr A (show ((x % 5 + 5 * (y % 5)) % 5 + 1) % 5 % 5 = (x + 1) % 5 by omega)]
  rfl

/-- Settles O16: theta lane by lane, read at bit `z`. -/
theorem thetaBitwise : Obligations.ThetaBitwise := by
  intro A x y z _ _ hz
  rw [laneAt_theta]
  simp only [columnParity, BitVec.getLsbD_xor, getLsbD_rotl64 _ 1 hz, Bool.xor_assoc, Nat.reduceMod, Nat.reduceSub]

/-! ## Chi -/

/-- Chi lane by lane (R78). -/
theorem laneAt_chi (B : Lanes) (x y : Nat) :
    laneAt (chi B) x y = laneAt B x y ^^^ (~~~ laneAt B (x + 1) y &&& laneAt B (x + 2) y) := by
  have hx (k : Nat) : ((x % 5 + 5 * (y % 5)) % 5 + k) % 5 = (x + k) % 5 := by omega
  have hy : (x % 5 + 5 * (y % 5)) / 5 % 5 = y % 5 := by omega
  simp only [chi, laneAt_ofFn]
  rw [← Nat.add_zero (_ % 5), laneAt_congr B (hx 0) hy, laneAt_congr B (hx 1) hy, laneAt_congr B (hx 2) hy]
  rfl

/-- Settles O19: chi lane by lane, read at bit `z`. -/
theorem chiBitwise : Obligations.ChiBitwise := by
  intro B x y z _ _ hz
  rw [laneAt_chi, laneAt_congr B (Nat.mod_mod (x + 1) 5) rfl, laneAt_congr B (Nat.mod_mod (x + 2) 5) rfl]
  simp [hz]

/-! ## Rho, pi and iota -/

theorem rho_getElem (A : Lanes) (i : Fin 25) : (rho A)[i] = rotl64 A[i] (rhoOffset i) := Vector.getElem_ofFn _

/-- The printed table of rho is the one its generator gives (R75). -/
theorem rhoGenerated_eq_rhoOffset : ∀ i : Fin 25, rhoGenerated[i] = rhoOffset i := by decide +kernel

theorem rhoOffset_injective : Function.Injective rhoOffset := by decide

/-- Settles O17: the generator gives the printed offsets, and the rotation moves the bits by them. -/
theorem rhoRotatesByTheGeneratedOffsets : Obligations.RhoRotatesByTheGeneratedOffsets := by
  unfold Obligations.RhoRotatesByTheGeneratedOffsets
  simp only [rhoGenerated_eq_rhoOffset]
  refine ⟨fun A i z hz => ?_, fun A => ?_, by decide, fun _ _ => @rhoOffset_injective _ _⟩
  · rw [rho_getElem, getLsbD_rotl64_add_mod _ _ hz]
  · exact (rho_getElem A 0).trans (rotl64_of_mod_eq_zero _ rfl)

theorem piSource_piDest : ∀ i : Fin 25, piSource (piDest i) = i := by decide

theorem piDest_piSource : ∀ j : Fin 25, piDest (piSource j) = j := by decide

/-- The lane at `j` comes from `PI_SRC[j]` (R77). -/
theorem pi_getElem (A : Lanes) (j : Fin 25) : (pi A)[j] = A[piSource j] := by
  have hsource : ∀ j : Fin 25, (j.val % 5 + 3 * (j.val / 5)) % 5 + 5 * (j.val % 5 % 5) = (piSource j).val := by decide
  rw [pi, Fin.getElem_fin, Vector.getElem_ofFn]
  simp only [laneAt, hsource, Fin.getElem_fin]

/-- Settles O18: the tables against their formulas, and the lane that arrives at `j`. -/
theorem piMovesLanes : Obligations.PiMovesLanes :=
  ⟨by decide, by decide, fun i => ⟨piSource_piDest i, piDest_piSource i⟩,
    fun A i => by simp only [pi_getElem, piSource_piDest], pi_getElem⟩

theorem iota_getElem_zero (A : Lanes) (r : Fin 24) : (iota A r)[0] = A[0] ^^^ roundConstant r :=
  Vector.getElem_set_self _

theorem iota_getElem_of_ne (A : Lanes) (r : Fin 24) {i : Fin 25} (hi : i ≠ 0) : (iota A r)[i] = A[i] :=
  Vector.getElem_set_ne _ _ fun h => hi (Fin.ext h.symm)

/-- The printed round constants are those of the shift register (R80). -/
theorem roundConstant_eq_rcGenerated : ∀ r : Fin 24, roundConstant r = rcGenerated r.val := by decide +kernel

/-- Settles O20: the constant is the generated one, and the write is to lane 0 alone. -/
theorem iotaXorsTheGeneratedConstant : Obligations.IotaXorsTheGeneratedConstant := fun A r =>
  ⟨by rw [iota_getElem_zero, roundConstant_eq_rcGenerated], fun _ => iota_getElem_of_ne A r⟩

/-! ## The flattened loop of rho and pi -/

theorem pi_rho_getElem (A : Lanes) (j : Fin 25) :
    (pi (rho A))[j] = rotl64 A[piSource j] (rhoOffset (piSource j)) := by
  rw [pi_getElem, rho_getElem]

/-- The turn `q` continues the walk of R83 after the turn `p`: the lane read last, that of `p`, is the one that moves to the
lane of `q`, and the amount of `q` is its offset. -/
def RhoPiLink (p q : Fin 25 × Nat) : Prop := piSource q.1 = p.1 ∧ rhoOffset p.1 = q.2

theorem rhoPiTurn_snd_self (t : Lane) (B : Lanes) (q : Fin 25 × Nat) : (rhoPiTurn (t, B) q).2[q.1] = rotl64 t q.2 :=
  Vector.getElem_set_self _

theorem rhoPiTurn_snd_of_ne (t : Lane) (B : Lanes) {q : Fin 25 × Nat} {j : Fin 25} (h : j ≠ q.1) :
    (rhoPiTurn (t, B) q).2[j] = B[j] :=
  Vector.getElem_set_ne q.1.isLt j.isLt fun e => h (Fin.ext e.symm)

/-- The loop leaves the lanes off its walk. -/
theorem rhoPiTurns_getElem_of_notMem {j : Fin 25} : ∀ (w : List (Fin 25 × Nat)) (t : Lane) (B : Lanes),
    j ∉ w.map Prod.fst → (w.foldl rhoPiTurn (t, B)).2[j] = B[j]
  | [], _, _, _ => rfl
  | q :: w, t, B, h => by
    obtain ⟨hq, hw⟩ := not_or.mp (mt List.mem_cons.mpr h)
    exact (rhoPiTurns_getElem_of_notMem w _ _ hw).trans (rhoPiTurn_snd_of_ne t B hq)

/-- The loop on a walk without repetition: with the lane of `p` in hand and the lanes ahead not yet written, each lane of the
walk ends as that of pi of rho. -/
theorem rhoPiTurns_getElem_of_mem (A : Lanes) {j : Fin 25} : ∀ (w : List (Fin 25 × Nat)) (p : Fin 25 × Nat) (B : Lanes),
    (p :: w).IsChain RhoPiLink → (w.map Prod.fst).Nodup → (∀ k ∈ w.map Prod.fst, B[k] = A[k]) →
    j ∈ w.map Prod.fst → (w.foldl rhoPiTurn (A[p.1], B)).2[j] = (pi (rho A))[j]
  | q :: w, p, B, hchain, hnodup, hB, hj => by
    obtain ⟨⟨hsource, hoffset⟩, hchain⟩ := List.isChain_cons_cons.mp hchain
    obtain ⟨hq, hnodup⟩ := List.nodup_cons.mp hnodup
    have hread : (rhoPiTurn (A[p.1], B) q).1 = A[q.1] := hB q.1 List.mem_cons_self
    obtain rfl | hj := List.mem_cons.mp hj
    · calc (w.foldl rhoPiTurn (rhoPiTurn (A[p.1], B) q)).2[q.1]
        _ = (rhoPiTurn (A[p.1], B) q).2[q.1] := rhoPiTurns_getElem_of_notMem w _ _ hq
        _ = rotl64 A[p.1] q.2 := rhoPiTurn_snd_self _ _ _
        _ = (pi (rho A))[q.1] := by simp only [pi_rho_getElem, hsource, hoffset]
    · have hahead (k) (hk : k ∈ w.map Prod.fst) : (rhoPiTurn (A[p.1], B) q).2[k] = A[k] :=
        (rhoPiTurn_snd_of_ne _ B fun e => hq (e ▸ hk)).trans (hB k (List.mem_cons_of_mem _ hk))
      rw [List.foldl_cons, ← Prod.eta (rhoPiTurn _ _), hread]
      exact rhoPiTurns_getElem_of_mem A w q _ hchain hnodup hahead hj

/-- The walk of R83 starts from lane 1 and goes along pi with the offsets of rho. -/
theorem rhoPiWalk_isChain : ((1, 0) :: rhoPiWalk).IsChain RhoPiLink := by
  unfold RhoPiLink
  decide

theorem rhoPiWalk_nodup : (rhoPiWalk.map Prod.fst).Nodup := by decide

/-- The walk visits every lane but lane 0, which rho and pi leave. -/
theorem mem_rhoPiWalk_of_ne_zero : ∀ j : Fin 25, j ≠ 0 → j ∈ rhoPiWalk.map Prod.fst := by decide

/-- Settles O22: the walk is one cycle of pi through the 24 other lanes, each written once, with the lane that moves there in
hand. -/
theorem flattenedLoopIsRhoThenPi : Obligations.FlattenedLoopIsRhoThenPi := by
  intro A
  refine lanes_ext_index fun j => ?_
  by_cases hj : j = 0
  · subst hj
    calc (rhoPiLoop A)[(0 : Fin 25)]
      _ = A[(0 : Fin 25)] := rhoPiTurns_getElem_of_notMem rhoPiWalk _ A (by decide)
      _ = rotl64 A[piSource 0] (rhoOffset (piSource 0)) := (rotl64_of_mod_eq_zero _ rfl).symm
      _ = (pi (rho A))[(0 : Fin 25)] := (pi_rho_getElem A 0).symm
  · exact rhoPiTurns_getElem_of_mem A rhoPiWalk (1, 0) A rhoPiWalk_isChain rhoPiWalk_nodup (fun _ _ => rfl)
      (mem_rhoPiWalk_of_ne_zero j hj)

/-! ## The rounds -/

/-- The state after the first `n` rounds. -/
def afterRounds (A : Lanes) (n : Nat) : Lanes := ((List.finRange 24).take n).foldl keccakRound A

theorem afterRounds_succ (A : Lanes) (r : Fin 24) :
    afterRounds A (r.val + 1) = keccakRound (afterRounds A r.val) r := by
  have hr : r.val < (List.finRange 24).length := by simp
  simp [afterRounds, List.take_succ_eq_append_getElem hr]

theorem permute_eq_afterRounds (A : Lanes) : permute A = afterRounds A 24 := by
  unfold permute
  rfl

/-- Settles O21: `T` is the state after the first rounds. -/
theorem permuteIsTwentyFourRounds : Obligations.PermuteIsTwentyFourRounds := fun A =>
  ⟨afterRounds A, rfl, afterRounds_succ A, permute_eq_afterRounds A⟩

/-! ## The permutation is a bijection

The states are finitely many, so it is enough that every step mapping is one to one. Theta acts on the column parities as the
element `1 + x^4 + x z` of a ring of characteristic 2 with `x^5 = z^64 = 1`; its 64th power `1 + x^4 + x` has order 3. -/

theorem xor_left_comm_lane (a b c : Lane) : a ^^^ (b ^^^ c) = b ^^^ (a ^^^ c) := by
  rw [← BitVec.xor_assoc, BitVec.xor_comm a b, BitVec.xor_assoc]

theorem xor_xor_cancel_left_lane (a b : Lane) : a ^^^ (a ^^^ b) = b := by
  rw [← BitVec.xor_assoc, BitVec.xor_self, BitVec.zero_xor]

/-- The element `1 + x^(4a) + x^a z^a` acting on the column parities, `x` the step of a column, `z` that of a bit. For
`a = 1` it is what theta does to them. -/
def parityStep (a : Nat) (C : Nat → Lane) (x : Nat) : Lane := C x ^^^ (C (x + 4 * a) ^^^ rotl64 (C (x + a)) a)

theorem columnParity_theta (A : Lanes) : columnParity (theta A) = parityStep 1 (columnParity A) := by
  funext x
  rw [parityStep, columnParity]
  simp only [laneAt_theta]
  generalize columnParity A (x + 4) ^^^ rotl64 (columnParity A (x + 1)) 1 = d
  rw [columnParity]
  simp only [BitVec.xor_assoc, BitVec.xor_comm, xor_left_comm_lane, xor_xor_cancel_left_lane]

/-- Squaring in characteristic 2. -/
theorem parityStep_parityStep (a : Nat) (C : Nat → Lane) : parityStep a (parityStep a C) = parityStep (2 * a) C := by
  funext x
  simp only [parityStep, rotl64_xor, rotl64_rotl64]
  rw [show x + 4 * a + 4 * a = x + 4 * (2 * a) by omega, show x + a + a = x + 2 * a by omega, ← Nat.two_mul,
    show x + 4 * a + a = x + a + 4 * a by omega]
  simp only [BitVec.xor_assoc, BitVec.xor_comm, xor_left_comm_lane, xor_xor_cancel_left_lane, BitVec.xor_self,
    BitVec.zero_xor]

theorem parityStep_two_pow_congr {C C' : Nat → Lane} (h : parityStep 1 C = parityStep 1 C') :
    ∀ k, parityStep (2 ^ k) C = parityStep (2 ^ k) C'
  | 0 => h
  | k + 1 => by
    rw [Nat.pow_succ', ← parityStep_parityStep, ← parityStep_parityStep, parityStep_two_pow_congr h k]

/-- The 192nd power is 1: by `z^64 = 1` no bit moves, and by `x^5 = 1` every column but `x` is there twice. -/
theorem parityStep_64_parityStep_128 {C : Nat → Lane} (hC : ∀ {x x'}, x % 5 = x' % 5 → C x = C x') :
    parityStep 64 (parityStep 128 C) = C := by
  funext x
  simp only [parityStep, rotl64_of_mod_eq_zero, Nat.reduceMod, Nat.reduceMul, Nat.add_assoc, Nat.reduceAdd]
  rw [hC (show (x + 256) % 5 = (x + 576) % 5 by omega), hC (show (x + 512) % 5 = (x + 192) % 5 by omega),
    hC (show (x + 128) % 5 = (x + 768) % 5 by omega), hC (show (x + 384) % 5 = (x + 64) % 5 by omega)]
  simp only [BitVec.xor_assoc, BitVec.xor_comm, xor_left_comm_lane, xor_xor_cancel_left_lane, BitVec.xor_self,
    BitVec.xor_zero]

theorem theta_injective : Function.Injective theta := by
  intro A B h
  have hstep : parityStep 1 (columnParity A) = parityStep 1 (columnParity B) := by
    rw [← columnParity_theta, ← columnParity_theta, h]
  have h128 : parityStep 128 (columnParity A) = parityStep 128 (columnParity B) := parityStep_two_pow_congr hstep 7
  have hparity : columnParity A = columnParity B := by
    rw [← parityStep_64_parityStep_128 (columnParity_congr A), h128, parityStep_64_parityStep_128 (columnParity_congr B)]
  refine lanes_ext fun x y => ?_
  have hlane := congrArg (laneAt · x y) h
  simpa only [laneAt_theta, hparity, BitVec.xor_left_inj] using hlane

theorem rho_injective : Function.Injective rho := fun A B h => lanes_ext_index fun i => by
  have hi : (rho A)[i] = (rho B)[i] := by rw [h]
  rw [rho_getElem, rho_getElem] at hi
  exact rotl64_injective _ hi

theorem pi_injective : Function.Injective pi := fun A B h => lanes_ext_index fun i => by
  have hi : (pi A)[piDest i] = (pi B)[piDest i] := by rw [h]
  simpa only [pi_getElem, piSource_piDest] using hi

/-- Chi on the bits of one row. -/
def chiRow (b : Fin 5 → Bool) : Fin 5 → Bool := fun x => b x ^^ (!b (x + 1) && b (x + 2))

/-- The fourth power of chi is the identity. -/
theorem chiRow_injective : Function.Injective chiRow :=
  have hfour : Function.LeftInverse (chiRow ∘ chiRow ∘ chiRow) chiRow := by decide
  hfour.injective

/-- The bits `z` of row `y`. -/
def rowBits (A : Lanes) (y z : Nat) : Fin 5 → Bool := fun x => (laneAt A x y).getLsbD z

theorem rowBits_chi (B : Lanes) (y : Nat) {z : Nat} (hz : z < 64) : rowBits (chi B) y z = chiRow (rowBits B y z) := by
  funext x
  have hadd (k : Fin 5) : laneAt B (x + k : Fin 5) y = laneAt B (x + k) y :=
    laneAt_congr B (by rw [Fin.val_add, Nat.mod_mod]) rfl
  simp [rowBits, chiRow, laneAt_chi, hadd, hz]

theorem chi_injective : Function.Injective chi := by
  intro A B h
  refine lanes_ext fun x y => BitVec.eq_of_getLsbD_eq fun z hz => ?_
  have hrow : rowBits A y z = rowBits B y z := chiRow_injective (by rw [← rowBits_chi A y hz, ← rowBits_chi B y hz, h])
  have hx := congrFun hrow ⟨x % 5, Nat.mod_lt x (by decide)⟩
  simpa only [rowBits, laneAt_congr _ (Nat.mod_mod x 5) rfl] using hx

/-- Iota twice with one round is the identity. -/
theorem iota_injective (r : Fin 24) : Function.Injective (iota · r) :=
  have htwice : Function.LeftInverse (iota · r) (iota · r) := fun A => by simp [iota]
  htwice.injective

theorem keccakRound_injective (r : Fin 24) : Function.Injective (keccakRound · r) :=
  (iota_injective r).comp (chi_injective.comp (pi_injective.comp (rho_injective.comp theta_injective)))

theorem foldl_injective {α β : Type*} {f : β → α → β} (hf : ∀ a, Function.Injective (f · a)) :
    ∀ l : List α, Function.Injective (l.foldl f ·)
  | [] => fun _ _ h => h
  | a :: l => (foldl_injective hf l).comp (hf a)

theorem permute_injective : Function.Injective permute := by
  unfold permute
  exact foldl_injective keccakRound_injective _

theorem finite_lanes : Finite Lanes :=
  Finite.of_injective (fun (A : Lanes) (i : Fin 25) => A[i]) fun _ _ h => lanes_ext_index (congrFun h)

/-- Settles O23: one to one because each step mapping is, and onto because the states are finitely many. -/
theorem permuteIsBijective : Obligations.PermuteIsBijective :=
  have := finite_lanes
  Finite.injective_iff_bijective.mp permute_injective

end Sys2Proof.Proofs

/-! # The sponge: the mode table, the block in the state, update, padding, squeeze, hash, the sponge commands (41_sponge.md) -/

namespace Sys2Proof.Proofs

open Sys2Proof.Machine Sys2Proof.Laws

/-! ## The mode table -/

/-- Settles O24: each of the first four tags selects its row, the relations hold row by row, and no other tag has one. -/
theorem modeTable : Obligations.ModeTable :=
  ⟨⟨.sha3_224, by decide⟩, ⟨.sha3_256, by decide⟩, ⟨.sha3_384, by decide⟩, ⟨.sha3_512, by decide⟩,
    fun tag => (modeOfTag_eq_none_iff tag).2, fun m => by cases m <;> decide, by decide⟩

/-! ## A block by lanes and by bytes -/

/-- The state bytes determine the state: each lane is the sum of its eight bytes (20_memory.md R32). -/
theorem lanes_ext_stateByte {A B : Lanes} (h : ∀ k < 200, stateByte A k = stateByte B k) : A = B := by
  refine lanes_ext_index fun i => BitVec.eq_of_toNat_eq ?_
  rw [lanesAreLittleEndian A i, lanesAreLittleEndian B i]
  refine congrArg List.sum (List.map_congr_left fun j hj => ?_)
  have hj8 : j < 8 := List.mem_range.1 hj
  rw [h _ (by omega)]

/-- A byte moved to place `j` of a lane stands there alone. -/
theorem laneByte_shiftLeft (v : Byte) {i j : Nat} (hi : i < 8) :
    laneByte (v.setWidth 64 <<< (8 * j)) i = if i = j then v else 0 := by
  ext t ht
  have hin : 8 * i + t < 64 := by omega
  obtain hij | rfl | hij := Nat.lt_trichotomy i j
  · have hlow : 8 * i + t < 8 * j := by omega
    simp [laneByte, hin, hlow, hij.ne]
  · simp [laneByte, hin, BitVec.getLsbD_eq_getElem ht]
  · have hge : ¬ 8 * i + t < 8 * j := by omega
    have hout : v.getLsbD (8 * i + t - 8 * j) = false := BitVec.getLsbD_of_ge _ _ (by omega)
    simp [laneByte, hin, hge, hij.ne', hout]

/-- The XOR of one byte goes into one lane (20_memory.md R32). -/
theorem xorByte_getElem (A : Lanes) (k : Nat) (v : Byte) (i : Fin 25) :
    (xorByte A k v)[i] = if i.val = k / 8 then A[i] ^^^ (v.setWidth 64 <<< (8 * (k % 8))) else A[i] := by
  obtain ⟨i, hi⟩ := i
  by_cases h : k / 8 = i
  · subst h
    simp [xorByte, hi]
  · simp [xorByte, h, Ne.symm h]

/-- The XOR of one byte changes the state byte at its place and no other (20_memory.md R32). -/
theorem stateByte_xorByte (A : Lanes) (v : Byte) {j k : Nat} (hk : k < 200) :
    stateByte (xorByte A j v) k = stateByte A k ^^^ (if k = j then v else 0) := by
  have hlane := xorByte_getElem A j v ⟨k / 8, by omega⟩
  simp only [Fin.getElem_fin] at hlane
  rw [stateByte_eq_laneByte _ hk, stateByte_eq_laneByte _ hk, hlane]
  by_cases hl : k / 8 = j / 8
  · have hplace : k % 8 = j % 8 ↔ k = j := by omega
    simp only [hl, if_true, laneByte_xor, laneByte_shiftLeft v (Nat.mod_lt k (by decide : 0 < 8)), hplace]
  · have hne : k ≠ j := fun h => hl (h ▸ rfl)
    simp [hl, hne]

/-- Bytes `[0, n)` of a block, XORed one after the other, change the first `n` state bytes. -/
theorem stateByte_foldl_xorByte (A : Lanes) (b : Nat → Byte) {k : Nat} (hk : k < 200) (n : Nat) :
    stateByte ((List.range n).foldl (fun B j => xorByte B j (b j)) A) k =
      stateByte A k ^^^ (if k < n then b k else 0) := by
  induction n with
  | zero => simp
  | succ n ih =>
    rw [List.range_succ, List.foldl_append, List.foldl_cons, List.foldl_nil, stateByte_xorByte _ _ hk, ih]
    obtain hkn | rfl | hkn := Nat.lt_trichotomy k n
    · simp [hkn, hkn.ne, Nat.lt_succ_of_lt hkn]
    · simp
    · have hn : ¬ k < n + 1 := by omega
      simp [hkn.ne', hkn.not_gt, hn]

/-- The XOR of a block, byte after byte, in the form of `stateByte_xorBlock`. -/
theorem stateByte_xorBlockBytes (A : Lanes) (blk : List Byte) {k : Nat} (hk : k < 200) :
    stateByte (xorBlockBytes A blk) k = stateByte A k ^^^ blk.getD k 0 := by
  rw [xorBlockBytes, stateByte_foldl_xorByte A (blk.getD · 0) hk]
  split
  · rfl
  · rw [List.getD_eq_default _ _ (by omega)]

/-- Settles O26: both forms leave the same state bytes, and these determine the state. -/
theorem laneFormIsByteForm : Obligations.LaneFormIsByteForm := fun A blk _ =>
  lanes_ext_stateByte fun k hk => by rw [stateByte_xorBlock A blk hk, stateByte_xorBlockBytes A blk hk]

/-! ## The update -/

/-- Settles O28: the loop of R94 absorbs exactly the whole blocks of `pending ‖ d`. -/
theorem updateAbsorbsWholeBlocks : Obligations.UpdateAbsorbsWholeBlocks := by
  intro X d hbs
  rw [updateInstance_eq hbs d, List.length_append]

/-- One byte taken by the byte-serial controller is an update by that byte (41_sponge.md R99). -/
theorem updateByte_eq_updateInstance {X : Sponge} (hlen : X.pendingLen = X.pending.length)
    (hlt : X.pending.length < X.blockSize) (v : Byte) : updateByte X v = updateInstance X [v] := by
  have hbuf : (X.pending ++ [v]).length = X.pending.length + 1 := by simp
  unfold updateByte
  simp only [updateInstance, hbuf]
  by_cases hfull : X.pending.length + 1 = X.blockSize
  · rw [if_pos (by rw [hlen, hfull]), absorbWhile_of_le (by omega), List.take_of_length_le (by omega),
      List.drop_of_length_le (by omega), absorbWhile_of_lt (by simp; omega)]
    rfl
  · rw [if_neg (by rw [hlen]; exact hfull), absorbWhile_of_lt (by omega), hbuf, hlen]

/-- Settles O29: byte by byte it is updates by one byte each, which are one update by all of them. -/
theorem byteSerialUpdateAgrees : Obligations.ByteSerialUpdateAgrees := by
  intro X d
  unfold updateBytewise
  induction d generalizing X with
  | nil =>
    intro hlen hlt
    exact (updateInstance_nil hlen (hlen ▸ hlt)).symm
  | cons v d ih =>
    intro hlen hlt
    have hbs : 0 < X.blockSize := Nat.zero_lt_of_lt hlt
    rw [List.foldl_cons, updateByte_eq_updateInstance hlen (hlen ▸ hlt), ih _ rfl (updateInstance_pending_lt hbs _),
      updateInstance_append hbs, List.singleton_append]

/-! ## The padded block -/

/-- With one byte of room the two markers share it (41_sponge.md R95). -/
theorem padBlock_of_one_left {p : List Byte} {bs : Nat} (h : p.length + 1 = bs) : padBlock p bs = p ++ [0x86] := by
  have hq : bs - p.length = 1 := by omega
  simp [padBlock, hq, domainByte, padEndByte]

/-- With more room the markers stand apart, zeros between them. -/
theorem padBlock_of_more_left {p : List Byte} {bs : Nat} (h : p.length + 2 ≤ bs) :
    padBlock p bs = p ++ [0x06] ++ List.replicate (bs - p.length - 2) 0 ++ [0x80] := by
  have hq : bs - p.length ≠ 1 := by omega
  simp [padBlock, hq, domainByte, padEndByte]

/-- A byte of the padded block is that of the message's end, of the first marker and of the last marker, XORed. -/
theorem padBlock_getD {p : List Byte} {bs k : Nat} (h : p.length < bs) (hk : k < bs) :
    (padBlock p bs).getD k 0 =
      p.getD k 0 ^^^ (if k = p.length then 0x06 else 0) ^^^ (if k = bs - 1 then 0x80 else 0) := by
  obtain hone | hmore : p.length + 1 = bs ∨ p.length + 2 ≤ bs := by omega
  · have hlast : bs - 1 = p.length := by omega
    rw [padBlock_of_one_left hone, hlast]
    obtain hkp | rfl : k < p.length ∨ k = p.length := by omega
    · simp [List.getElem?_append_left hkp, hkp.ne]
    · simp
  · rw [padBlock_of_more_left hmore]
    obtain hkp | rfl | hkp : k < p.length ∨ k = p.length ∨ p.length < k := by omega
    · have hlast : k ≠ bs - 1 := by omega
      simp [List.getElem?_append_left hkp, hkp.ne, hlast]
    · have hlast : p.length ≠ bs - 1 := by omega
      simp [hlast]
    · obtain ⟨r, rfl⟩ : ∃ r, k = p.length + (r + 1) := ⟨k - p.length - 1, by omega⟩
      have hr : p.length + (r + 1) = bs - 1 ↔ r = bs - p.length - 2 := by omega
      obtain hz | rfl : r < bs - p.length - 2 ∨ r = bs - p.length - 2 := by omega
      · simp [hr, List.getElem?_append, hz, hz.ne]
      · simp [hr]

/-- Only the shared marker is `86` (90_conflicts.md C1). -/
theorem padBlock_getLast?_eq_iff {p : List Byte} {bs : Nat} (h : p.length < bs) :
    (padBlock p bs).getLast? = some 0x86 ↔ p.length = bs - 1 := by
  obtain hone | hmore : p.length + 1 = bs ∨ p.length + 2 ≤ bs := by omega
  · have hlast : p.length = bs - 1 := by omega
    rw [padBlock_of_one_left hone, List.getLast?_concat]
    simp [hlast]
  · have hne : p.length ≠ bs - 1 := by omega
    rw [padBlock_of_more_left hmore, List.getLast?_concat]
    simp [hne]

/-- Settles O31: the block in its two cases, one byte of room or more. -/
theorem padBlockForm : Obligations.PadBlockForm := fun _ _ h =>
  ⟨padBlock_length h, fun _ hk => padBlock_getD h hk, padBlock_getLast?_eq_iff h⟩

/-! ## The squeeze and the hash -/

/-- Settles O32: the loop of R96 ends in its first turn. -/
theorem squeezeTakesTheFirstBytes : Obligations.SqueezeTakesTheFirstBytes := fun _ => squeeze_of_le

/-- Settles O33: the update absorbs the whole blocks of the message, the finalize its padded rest. -/
theorem hashUnfolds : Obligations.HashUnfolds := fun m M => ⟨hashOf_eq_hashUnfolded m M, hashOf_length m M⟩

/-! ## The commands on `S` and `HASH` -/

/-- A command whose checks fail, with its payload there, ends with the status of the failed check. -/
theorem exec_error {i : Instr} {s : State} {st : Status} (he : effectOf i s = .error st)
    (hpay : PayloadThere i.fields s) : exec i s = .next (afterFailure i.fields s st) := by
  rw [exec_eq_runCommand, he]
  exact runCommand_error hpay st

section
variable {f : Fields} {s : State}

/-- With a tag that selects a mode, `SPONGE_INIT` leaves the fresh instance of that mode (41_sponge.md R100). -/
theorem exec_spongeInit_of_mode {m : Mode} (hpay : PayloadThere f s) (hm : modeOfTag f.mode = some m) :
    exec (.spongeInit f) s = .next (afterCommand f s (initInstance m) s.HM [] .ok) := by
  have he : effectOf (.spongeInit f) s = .ok { noEffect s with S := initInstance m } := by
    simp only [effectOf, spongeInitEffect_eq, hm]
  exact exec_ok he hpay (.inl rfl)

theorem exec_spongeInit_of_no_mode (hpay : PayloadThere f s) (hm : 3 < f.mode) :
    exec (.spongeInit f) s = .next (afterFailure f s .invalidMode) := by
  have he : effectOf (.spongeInit f) s = .error .invalidMode := by
    simp only [effectOf, spongeInitEffect_eq, (modeOfTag_eq_none_iff f.mode).2 hm]
  exact exec_error he hpay

/-- What `SPONGE_UPDATE` does is what its checked update answers. -/
theorem effectOf_spongeUpdate_ok {X : Sponge} (h : checkedUpdate s.S (dataOperand f s) f.dlen = .ok X) :
    effectOf (.spongeUpdate f) s = .ok { noEffect s with S := X } := by
  simp only [effectOf, spongeUpdateEffect_eq, h]

theorem effectOf_spongeUpdate_error {st : Status} (h : checkedUpdate s.S (dataOperand f s) f.dlen = .error st) :
    effectOf (.spongeUpdate f) s = .error st := by
  simp only [effectOf, spongeUpdateEffect_eq, h]

end

/-- Settles O38: the instance a tag's mode starts is the fresh sponge of the tag's row. -/
theorem spongeInitResult : Obligations.SpongeInitResult := fun f s hpay =>
  ⟨fun h => exec_spongeInit_of_mode hpay (m := .sha3_224) (by rw [h]; rfl),
    fun h => exec_spongeInit_of_mode hpay (m := .sha3_256) (by rw [h]; rfl),
    fun h => exec_spongeInit_of_mode hpay (m := .sha3_384) (by rw [h]; rfl),
    fun h => exec_spongeInit_of_mode hpay (m := .sha3_512) (by rw [h]; rfl),
    exec_spongeInit_of_no_mode hpay⟩

/-- Settles O39: the checked update refuses, does nothing, or is the update that absorbs the whole blocks. -/
theorem spongeUpdateResult : Obligations.SpongeUpdateResult := by
  intro f s hs hpay
  refine ⟨fun hp => ?_, fun hp hi hd => ?_, fun hp hi hd => ?_, fun hp hi => ?_⟩
  · exact exec_error (effectOf_spongeUpdate_error (checkedUpdate_of_not_absorbing hp _ _)) hpay
  · have hc : checkedUpdate s.S (dataOperand f s) f.dlen = .error .nullInput := by
      simp [dataOperand, hi, checkedUpdate_none hp, hd.ne']
    exact exec_error (effectOf_spongeUpdate_error hc) hpay
  · exact (emptyUpdatesChangeNothing f s hs hpay hd).1 hp
  · have hc : checkedUpdate s.S (dataOperand f s) f.dlen = .ok (updateInstance s.S (s.din.take f.dlen)) := by
      simp [dataOperand, hi, checkedUpdate_some hp]
    have hbs : 0 < s.S.blockSize := modeFieldsAgree_blockSize_pos (hs.S.fields (by simp [hp]))
    rw [← updateInstance_eq hbs]
    exact exec_ok (effectOf_spongeUpdate_ok hc) hpay (.inl rfl)

/-- Settles O40: its two checks in their order, then the finalized instance, a digest of at most a block. -/
theorem spongeFinalResult : Obligations.SpongeFinalResult := by
  intro f s hs hpay
  have heff : effectOf (.spongeFinal f) s = _ := spongeFinalEffect_eq f s
  refine ⟨fun hp => ?_, fun hp ho => ?_, fun hp ho hready => ?_⟩
  · exact exec_error (heff.trans (if_pos hp)) hpay
  · rw [if_neg (not_not.2 hp), if_pos ho] at heff
    exact exec_error heff hpay
  · have hdl : s.S.digestLength ≤ s.S.blockSize := modeFieldsAgree_digest_le (hs.S.fields (by simp [hp]))
    rw [if_neg (not_not.2 hp), if_neg (by simp [ho]), finalizeInstance_eq hdl] at heff
    exact exec_ok heff hpay (.inr hready)

/-- Settles O41: its checks in their order, then the hash of the payload in its unfolded form. -/
theorem hashResult : Obligations.HashResult := by
  intro f s hpay
  have heff : effectOf (.hash f) s = _ := hashEffect_eq f s
  refine ⟨fun h => ?_, fun hi ho hm => ?_, fun m hi ho hm hready => ?_⟩
  · exact exec_error (heff.trans (if_pos h)) hpay
  · rw [if_neg (by simp [hi, ho]), (modeOfTag_eq_none_iff f.mode).2 hm] at heff
    exact exec_error heff hpay
  · rw [if_neg (by simp [hi, ho]), hm] at heff
    rw [← hashOf_eq_hashUnfolded]
    exact exec_ok heff hpay (.inr hready)

end Sys2Proof.Proofs

/-! # HMAC: the key block, the pads, the instance operations, the HMAC commands, a MAC streamed through `HM` (42_hmac.md) -/

namespace Sys2Proof.Proofs

open Sys2Proof.Machine Sys2Proof.Laws

/-! ## The key block -/

/-- A key of at most a block is used as it is, with zeros behind it (42_hmac.md R120). -/
theorem keyBlock_of_le {m : Mode} {key : List Byte} (h : key.length ≤ modeBlockSize m) :
    keyBlock m key = key ++ List.replicate (modeBlockSize m - key.length) 0 := by
  simp [keyBlock, Nat.not_lt.2 h]

theorem hashOf_length_le_blockSize (m : Mode) (M : List Byte) : (hashOf m M).length ≤ modeBlockSize m := by
  rw [hashOf_length]
  exact Nat.le_of_lt (modeDigestLength_lt_blockSize m)

/-- A key longer than a block has the key block of its hash (42_hmac.md R120). -/
theorem keyBlock_of_lt {m : Mode} {key : List Byte} (h : modeBlockSize m < key.length) :
    keyBlock m key = keyBlock m (hashOf m key) := by
  rw [keyBlock_of_le (hashOf_length_le_blockSize m key)]
  simp [keyBlock, h]

/-- Zeros behind a key within a block are those the block is filled with. -/
theorem keyBlock_append_zeros {m : Mode} {key : List Byte} {n : Nat} (h : key.length + n ≤ modeBlockSize m) :
    keyBlock m (key ++ List.replicate n 0) = keyBlock m key := by
  have hfill : n + (modeBlockSize m - (key.length + n)) = modeBlockSize m - key.length := by omega
  rw [keyBlock_of_le (by simpa using h), keyBlock_of_le (by omega), List.append_assoc, List.length_append,
    List.length_replicate, List.replicate_append_replicate, hfill]

/-- Zeros behind a byte sequence are what is read beyond its end. -/
theorem getD_append_zeros (l : List Byte) (n k : Nat) : (l ++ List.replicate n 0).getD k 0 = l.getD k 0 := by
  by_cases hk : k < l.length
  · exact List.getD_append _ _ _ _ hk
  · rw [List.getD_append_right _ _ _ _ (by omega), List.getD_eq_default l 0 (by omega),
      List.getD_eq_getElem?_getD, List.getElem?_replicate]
    split <;> rfl

theorem keyBlock_getD_of_le {m : Mode} {key : List Byte} (h : key.length ≤ modeBlockSize m) (k : Nat) :
    (keyBlock m key).getD k 0 = key.getD k 0 := by
  rw [keyBlock_of_le h, getD_append_zeros]

/-- Settles O34: the block is the key, or the hash that stands for a longer one, and zeros. -/
theorem keyBlockForm : Obligations.KeyBlockForm := fun m key =>
  ⟨keyBlock_length m key, keyBlock_getD_of_le, fun h k => by
    rw [keyBlock_of_lt h, keyBlock_getD_of_le (hashOf_length_le_blockSize m key), hashOf_eq_hashUnfolded]⟩

/-- The MAC depends on the key by its key block only (42_hmac.md R126). -/
theorem hmacOf_congr {m : Mode} {key key' : List Byte} (h : keyBlock m key = keyBlock m key') (M : List Byte) :
    hmacOf m key M = hmacOf m key' M := by
  simp only [hmacOf, h]

/-- Settles O36: in both cases the two keys have one key block. -/
theorem keyLengthProperties : Obligations.KeyLengthProperties := fun _ _ M _ =>
  ⟨fun h => hmacOf_congr (keyBlock_of_lt h) M, fun h => hmacOf_congr (keyBlock_append_zeros h).symm M⟩

/-! ## The pads and the fresh instance -/

/-- A pad of a key block, byte by byte (42_hmac.md R121). -/
theorem padOf_keyBlock (c : Byte) (m : Mode) (key : List Byte) :
    padOf c (keyBlock m key) =
      Vector.ofFn fun j => if j.val < modeBlockSize m then (keyBlock m key).getD j.val 0 ^^^ c else 0 := by
  refine Vector.ext fun j hj => ?_
  simp only [padOf, Vector.getElem_ofFn, keyBlock_length]
  split
  · rw [List.getD_eq_getElem]
  · rfl

/-- The bytes of a pad that are used are the key block XOR the constant. -/
theorem padBytes_padOf_keyBlock (c : Byte) (m : Mode) (key : List Byte) :
    padBytes (padOf c (keyBlock m key)) (modeBlockSize m) = (keyBlock m key).map (· ^^^ c) := by
  have hlen := keyBlock_length m key
  have hpad := padBytes_padOf c (keyBlock m key) (hlen ▸ modeBlockSize_le m)
  rwa [hlen] at hpad

/-- The fresh inner sponge has taken the `ipad` block (42_hmac.md R122). -/
theorem hmacInitInstance_inner_eq_update (m : Mode) (key : List Byte) :
    (hmacInitInstance m key).inner = updateInstance (initInstance m) ((keyBlock m key).map (· ^^^ 0x36)) := by
  rw [hmacInitInstance_inner, padBytes_padOf_keyBlock, ipadConst]

/-- A fresh sponge that takes exactly one block absorbs it and holds nothing pending. -/
theorem updateInstance_init_block {m : Mode} {blk : List Byte} (h : blk.length = modeBlockSize m) :
    updateInstance (initInstance m) blk =
      { initInstance m with A := absorbBlock (Vector.replicate 25 0) blk } := by
  have hbs := modeBlockSize_pos m
  rw [updateInstance_eq hbs]
  simp [h, Nat.div_self hbs, blocksOf_succ, absorbBlocks, List.take_of_length_le, List.drop_eq_nil_of_le]

/-- The inner sponge after the key is taken (42_hmac.md R122). -/
theorem hmacInitInstance_inner_eq (m : Mode) (key : List Byte) :
    (hmacInitInstance m key).inner = { initInstance m with
      A := permute (xorBlock (Vector.replicate 25 0) ((keyBlock m key).map (· ^^^ 0x36))) } := by
  rw [hmacInitInstance_inner_eq_update, updateInstance_init_block (by rw [List.length_map, keyBlock_length]), absorbBlock]

/-- Settles O35: the pads byte by byte, and an inner sponge that has absorbed one block. -/
theorem hmacInitLeaves : Obligations.HmacInitLeaves := by
  intro m key
  refine ⟨rfl, rfl, fun j hj => ?_, fun j hj => ?_, hmacInitInstance_inner_eq m key⟩
  · simp [padOf_keyBlock, hj, ipadConst, opadConst]
  · simp [padOf_keyBlock, Nat.not_lt.2 hj]

/-! ## The instance operations compute `Hmac` -/

/-- The HMAC instance after init with a key and an update by `M`. -/
def hmacAbsorbed (m : Mode) (key M : List Byte) : Hmac :=
  { hmacInitInstance m key with inner := updateInstance (hmacInitInstance m key).inner M }

/-- The inner sponge has taken the `ipad` block and the message. -/
theorem hmacAbsorbed_inner (m : Mode) (key M : List Byte) :
    (hmacAbsorbed m key M).inner = updateInstance (initInstance m) ((keyBlock m key).map (· ^^^ 0x36) ++ M) := by
  rw [hmacAbsorbed, hmacInitInstance_inner_eq_update, updateInstance_append (modeBlockSize_pos m)]

/-- After init any number of updates are the update by the concatenation of their bytes. -/
theorem foldl_updateInstance_hmacInit (m : Mode) (key : List Byte) (chunks : List (List Byte)) :
    { hmacInitInstance m key with inner := chunks.foldl updateInstance (hmacInitInstance m key).inner } =
      hmacAbsorbed m key chunks.flatten := by
  have hfold := foldl_updateInstance chunks (X := (hmacInitInstance m key).inner) rfl
    (updateInstance_pending_lt (modeBlockSize_pos m) _)
  rw [hfold, hmacAbsorbed]

theorem hmacAbsorbed_nil (m : Mode) (key : List Byte) : hmacAbsorbed m key [] = hmacInitInstance m key :=
  (foldl_updateInstance_hmacInit m key []).symm

/-- Final emits the MAC of the key and the message (42_hmac.md R126). -/
theorem hmacFinalInstance_hmacAbsorbed (m : Mode) (key M : List Byte) :
    (hmacFinalInstance (hmacAbsorbed m key M)).1 = hmacOf m key M := by
  have hopad : padBytes (hmacAbsorbed m key M).opad (hmacAbsorbed m key M).blockSize =
      (keyBlock m key).map (· ^^^ 0x5C) := padBytes_padOf_keyBlock opadConst m key
  rw [hmacFinalInstance_out, hopad, hmacAbsorbed_inner]
  rfl

/-- Settles O37: the updates are one update by the concatenation. -/
theorem hmacInstanceComputesHmac : Obligations.HmacInstanceComputesHmac := by
  intro m key chunks
  dsimp only
  rw [foldl_updateInstance_hmacInit, hmacFinalInstance_hmacAbsorbed]

/-! ## The HMAC commands -/

/-- Settles O42: its two checks in their order, then the fresh instance with its pads byte by byte. -/
theorem hmacInitResult : Obligations.HmacInitResult := by
  intro f s hpay
  have heff : effectOf (.hmacInit f) s = _ := hmacInitEffect_eq f s
  refine ⟨fun hk => ?_, fun hk hm => ?_, fun m hk hm => ?_⟩
  · exact exec_error (heff.trans (if_pos hk)) hpay
  · rw [if_neg (by simp [hk]), (modeOfTag_eq_none_iff f.mode).2 hm] at heff
    exact exec_error heff hpay
  · rw [if_neg (by simp [hk]), hm] at heff
    rw [← padOf_keyBlock, ← padOf_keyBlock, ← hmacInitInstance_inner_eq]
    exact exec_ok heff hpay (.inl rfl)

section
variable {f : Fields} {s : State}

/-- What `HMAC_UPDATE` does is what the checked update of the inner sponge answers. -/
theorem effectOf_hmacUpdate_ok {X : Sponge} (h : checkedUpdate s.HM.inner (dataOperand f s) f.dlen = .ok X) :
    effectOf (.hmacUpdate f) s = .ok { noEffect s with HM := { s.HM with inner := X } } := by
  simp only [effectOf, hmacUpdateEffect_eq, h]

theorem effectOf_hmacUpdate_error {st : Status}
    (h : checkedUpdate s.HM.inner (dataOperand f s) f.dlen = .error st) : effectOf (.hmacUpdate f) s = .error st := by
  simp only [effectOf, hmacUpdateEffect_eq, h]

/-- The update of an absorbing sponge by a buffer that is there (41_sponge.md R101). -/
theorem checkedUpdate_of_present {X : Sponge} (hp : X.phase = .absorbing) (hi : f.ibp = true) :
    checkedUpdate X (dataOperand f s) f.dlen = .ok (updateInstance X (s.din.take f.dlen)) := by
  simp [dataOperand, hi, checkedUpdate_some hp]

/-- The update of an absorbing sponge by an absent buffer with a length (60_exceptions.md R144). -/
theorem checkedUpdate_of_absent {X : Sponge} (hp : X.phase = .absorbing) (hi : f.ibp = false) (hd : 0 < f.dlen) :
    checkedUpdate X (dataOperand f s) f.dlen = .error .nullInput := by
  simp [dataOperand, hi, checkedUpdate_none hp, hd.ne']

end

/-- Settles O43: the checked update refuses, does nothing, or is the update that absorbs the whole blocks. -/
theorem hmacUpdateResult : Obligations.HmacUpdateResult := by
  intro f s hs hpay
  refine ⟨fun hp => ?_, fun hp hi hd => ?_, fun hp hi hd => ?_, fun hp hi => ?_⟩
  · exact exec_error (effectOf_hmacUpdate_error (checkedUpdate_of_not_absorbing hp _ _)) hpay
  · exact exec_error (effectOf_hmacUpdate_error (checkedUpdate_of_absent hp hi hd)) hpay
  · exact (emptyUpdatesChangeNothing f s hs hpay hd).2 hp
  · have hbs : 0 < s.HM.inner.blockSize := modeFieldsAgree_blockSize_pos (hs.HM.inner.fields (by simp [hp]))
    rw [← updateInstance_eq hbs]
    exact exec_ok (effectOf_hmacUpdate_ok (checkedUpdate_of_present hp hi)) hpay (.inl rfl)

/-- Final where the inner digest fits a block: the outer hash in its unfolded form, the inner sponge spent, both pads zero
(42_hmac.md R124). -/
theorem hmacFinalInstance_eq {Y : Hmac} (h : Y.inner.digestLength ≤ Y.inner.blockSize) :
    hmacFinalInstance Y =
      (hashUnfolded Y.mode (Y.opad.toList.take Y.blockSize ++
          stateBytes (absorbBlock Y.inner.A (padBlock Y.inner.pending Y.inner.blockSize)) Y.inner.digestLength),
        { Y with
          ipad := zeroPad
          opad := zeroPad
          inner := { Y.inner with
            A := absorbBlock Y.inner.A (padBlock Y.inner.pending Y.inner.blockSize)
            pending := []
            pendingLen := 0
            phase := .squeezed } }) := by
  simp only [hmacFinalInstance, finalizeInstance_eq h, hashOf_eq_hashUnfolded, padBytes]

/-- Settles O44: its two checks in their order, then the final of an instance whose inner digest fits a block. -/
theorem hmacFinalResult : Obligations.HmacFinalResult := by
  intro f s hs hpay
  have heff : effectOf (.hmacFinal f) s = _ := hmacFinalEffect_eq f s
  refine ⟨fun hp => ?_, fun hp ho => ?_, fun hp ho hready => ?_⟩
  · exact exec_error (heff.trans (if_pos hp)) hpay
  · rw [if_neg (not_not.2 hp), if_pos ho] at heff
    exact exec_error heff hpay
  · have hdl : s.HM.inner.digestLength ≤ s.HM.inner.blockSize :=
      modeFieldsAgree_digest_le (hs.HM.inner.fields (by simp [hp]))
    rw [if_neg (not_not.2 hp), if_neg (by simp [ho]), hmacFinalInstance_eq hdl] at heff
    exact exec_ok heff hpay (.inr hready)

/-- The one-shot `HMAC` with a key and a mode: its two later checks, then the MAC; an absent input with `dlen` 0 is the empty
message (42_hmac.md R125). -/
theorem effectOf_hmac_of_mode {f : Fields} {s : State} {m : Mode} (hk : f.kbp = true) (hm : modeOfTag f.mode = some m) :
    effectOf (.hmac f) s =
      if f.ibp = false ∧ f.dlen ≠ 0 then .error .nullInput
      else if f.obp = false then .error .invalidArgument
      else .ok { noEffect s with out := hmacOf m (s.kin.take f.klen) (s.din.take f.dlen) } := by
  have heff : effectOf (.hmac f) s = _ := hmacEffect_eq f s
  rw [if_neg (by simp [hk]), hm] at heff
  rw [heff, ← hmacFinalInstance_hmacAbsorbed]
  cases hi : f.ibp with
  | true => rfl
  | false =>
    by_cases hd : f.dlen = 0
    · rw [hd, List.take_zero, hmacAbsorbed_nil]
      rfl
    · simp only [hd, ne_eq, not_false_eq_true, and_self, if_true]

/-- Settles O45: its four checks in their order, then the MAC. -/
theorem hmacOneShotResult : Obligations.HmacOneShotResult := by
  intro f s hpay
  have heff : effectOf (.hmac f) s = _ := hmacEffect_eq f s
  have hinput (h : f.ibp = true ∨ f.dlen = 0) : ¬ (f.ibp = false ∧ f.dlen ≠ 0) := fun ⟨hi, hd⟩ =>
    h.elim (by simp [hi]) hd
  refine ⟨fun hk => ?_, fun hk hm => ?_, fun hk hm hi hd => ?_, fun hk hm hin ho => ?_, fun m hk hm hin ho hready => ?_⟩
  · exact exec_error (heff.trans (if_pos hk)) hpay
  · rw [if_neg (by simp [hk]), (modeOfTag_eq_none_iff f.mode).2 hm] at heff
    exact exec_error heff hpay
  · obtain ⟨m, hm⟩ := modeOfTag_some_of_le hm
    exact exec_error ((effectOf_hmac_of_mode hk hm).trans (if_pos ⟨hi, hd.ne'⟩)) hpay
  · obtain ⟨m, hm⟩ := modeOfTag_some_of_le hm
    exact exec_error ((effectOf_hmac_of_mode hk hm).trans ((if_neg (hinput hin)).trans (if_pos ho))) hpay
  · exact exec_ok ((effectOf_hmac_of_mode hk hm).trans ((if_neg (hinput hin)).trans (if_neg (by simp [ho])))) hpay
      (.inr hready)

/-! ## A MAC streamed through `HM` -/

/-- `s` while a MAC is streamed through `HM`: `Y` is in `HM`, the words `cmd`, the bytes `din` and the key bytes `kin` are still
offered, and `n` more commands have answered `OK`. -/
def macStreaming (s : State) (Y : Hmac) (cmd : List CmdWord) (din kin : List Byte) (n : Nat) : State :=
  { s with HM := Y, cmd := cmd, din := din, kin := kin, resp := s.resp ++ List.replicate n .ok }

/-- Every state is the start of a stream. -/
theorem macStreaming_start (s : State) : macStreaming s s.HM s.cmd s.din s.kin 0 = s := by simp [macStreaming]

section
variable {s : State} {Y : Hmac} {f : Fields} {rest : List CmdWord} {din kin : List Byte}

/-- A command whose checks pass, which keeps `S`, leaves `Y'` in `HM` and emits `out`, takes its word and the payload the word
announces. -/
theorem step_macStreaming {i : Instr} {Y' : Hmac} {out : List Byte} {n : Nat}
    (he : effectOf i (macStreaming s Y (encode i :: rest) din kin n) = .ok { S := s.S, HM := Y', out := out })
    (hr : s.rst = false) (hw : i.wellFormed = true)
    (hpay : PayloadThere i.fields (macStreaming s Y (encode i :: rest) din kin n)) (hout : out = [] ∨ s.outReady = true) :
    step (macStreaming s Y (encode i :: rest) din kin n) =
      .next { macStreaming s Y' rest (din.drop (dinCount i.fields)) (kin.drop (kinCount i.fields)) (n + 1) with
        dout := s.dout ++ out } := by
  rw [step_ok he hr rfl hw hpay hout]
  cases hi : i.fields.ibp <;> cases hk : i.fields.kbp <;>
    simp [afterCommand, macStreaming, dinCount, kinCount, hi, hk, List.replicate_succ']

theorem step_hmacInit {m : Mode} {key : List Byte} (hr : s.rst = false) (hw : f.wellFormed = true)
    (hm : modeOfTag f.mode = some m) (hi : f.ibp = false) (hk : f.kbp = true) (hlen : f.klen = key.length) (n : Nat) :
    step (macStreaming s Y (encode (.hmacInit f) :: rest) din (key ++ kin) n) =
      .next (macStreaming s (hmacInitInstance m key) rest din kin (n + 1)) := by
  refine (step_macStreaming (i := .hmacInit f) (Y' := hmacInitInstance m key) (out := [])
    ?effect hr hw ?payload (.inl rfl)).trans ?state
  case effect => simp [effectOf, hmacInitEffect_eq, macStreaming, hk, hm, hlen, noEffect]
  case payload => simp [PayloadThere, Instr.fields, macStreaming, hi, hlen]
  case state => simp [Instr.fields, dinCount, kinCount, hi, hk, hlen, macStreaming]

theorem step_hmacUpdate {c : List Byte} (hr : s.rst = false) (hp : Y.inner.phase = .absorbing)
    (hlen : c.length < 2 ^ 24) (n : Nat) :
    step (macStreaming s Y (encode (.hmacUpdate (dataFields c)) :: rest) (c ++ din) kin n) =
      .next (macStreaming s { Y with inner := updateInstance Y.inner c } rest din kin (n + 1)) := by
  have hw : (dataFields c).wellFormed = true := (wellFormed_iff _).2 ⟨Nat.two_pow_pos 4, hlen, Nat.two_pow_pos 24⟩
  refine (step_macStreaming (i := .hmacUpdate (dataFields c)) (Y' := { Y with inner := updateInstance Y.inner c })
    (out := []) ?effect hr hw ?payload (.inl rfl)).trans ?state
  case effect =>
    rw [effectOf_hmacUpdate_ok (checkedUpdate_of_present hp rfl)]
    simp [macStreaming, dataFields, noEffect]
  case payload => simp [PayloadThere, Instr.fields, macStreaming, dataFields]
  case state => simp [Instr.fields, dinCount, kinCount, dataFields, macStreaming]

theorem step_hmacFinal (hr : s.rst = false) (hready : s.outReady = true) (hp : Y.inner.phase = .absorbing)
    (hw : f.wellFormed = true) (ho : f.obp = true) (hi : f.ibp = false) (hk : f.kbp = false) (n : Nat) :
    step (macStreaming s Y (encode (.hmacFinal f) :: rest) din kin n) =
      .next { macStreaming s (hmacFinalInstance Y).2 rest din kin (n + 1) with
        dout := s.dout ++ (hmacFinalInstance Y).1 } := by
  refine (step_macStreaming (i := .hmacFinal f) (Y' := (hmacFinalInstance Y).2) (out := (hmacFinalInstance Y).1)
    ?effect hr hw (payloadThere_of_absent hi hk _) (.inr hready)).trans ?state
  case effect => simp [effectOf, hmacFinalEffect_eq, macStreaming, hp, ho, noEffect]
  case state => simp [Instr.fields, dinCount, kinCount, hi, hk]

end

/-- One `HMAC_UPDATE` for each chunk updates the inner sponge by the chunks in order, whatever is run after them. -/
theorem runSteps_hmacUpdates {s : State} (hr : s.rst = false) (rest : List CmdWord) (din kin : List Byte) (k : Nat)
    (chunks : List (List Byte)) (hlen : ∀ c ∈ chunks, c.length < 2 ^ 24) :
    ∀ (Y : Hmac) (n : Nat), Y.inner.phase = .absorbing →
      runSteps (chunks.length + k) (macStreaming s Y
          ((chunks.map fun c => encode (.hmacUpdate (dataFields c))) ++ rest) (chunks.flatten ++ din) kin n) =
        runSteps k (macStreaming s { Y with inner := chunks.foldl updateInstance Y.inner } rest din kin
          (n + chunks.length)) := by
  induction chunks with
  | nil => simp
  | cons c cs ih =>
    intro Y n hp
    obtain ⟨hc, hcs⟩ := List.forall_mem_cons.1 hlen
    rw [List.length_cons, Nat.add_right_comm, List.map_cons, List.cons_append, List.flatten_cons, List.append_assoc,
      runSteps_succ (step_hmacUpdate hr hp hc n), ih hcs { Y with inner := updateInstance Y.inner c } (n + 1) hp,
      List.foldl_cons, Nat.add_assoc n 1, Nat.add_comm 1]

/-- Settles O60: INIT leaves the fresh instance, the updates are one update by the concatenation, FINAL emits the MAC. -/
theorem streamedMac : Obligations.StreamedMac := by
  intro m fi ff key chunks s restCmd restDin restKin hwi hwf hm hii hik hil hfo hfi hfk hlen hr hready hc hd hk
  have hrun : runSteps (chunks.length + 1 + 1) s =
      .next { macStreaming s (hmacFinalInstance (hmacAbsorbed m key chunks.flatten)).2 restCmd restDin restKin
          (0 + 1 + chunks.length + 1) with
        dout := s.dout ++ hmacOf m key chunks.flatten } := calc
    _ = runSteps (chunks.length + 1 + 1) (macStreaming s s.HM (encode (.hmacInit fi) ::
          ((chunks.map fun c => encode (.hmacUpdate (dataFields c))) ++ encode (.hmacFinal ff) :: restCmd))
          (chunks.flatten ++ restDin) (key ++ restKin) 0) := by
        rw [← List.cons_append, ← hc, ← hd, ← hk, macStreaming_start]
    _ = runSteps (0 + 1) (macStreaming s (hmacAbsorbed m key chunks.flatten)
          (encode (.hmacFinal ff) :: restCmd) restDin restKin (0 + 1 + chunks.length)) := by
        rw [runSteps_succ (step_hmacInit hr hwi hm hii hik hil 0),
          runSteps_hmacUpdates hr _ _ _ _ chunks hlen _ _ rfl, foldl_updateInstance_hmacInit]
    _ = .next _ := runSteps_succ (step_hmacFinal hr hready rfl hwf hfo hfi hfk _) 0
    _ = _ := by rw [hmacFinalInstance_hmacAbsorbed]
  have hcount : 0 + 1 + chunks.length + 1 = chunks.length + 2 := by omega
  rw [hcount] at hrun
  exact ⟨_, hrun, rfl, rfl, rfl, rfl, rfl, rfl⟩

end Sys2Proof.Proofs

/-! # The order of checks, and what a failed command leaves (60_exceptions.md) -/

namespace Sys2Proof.Proofs

open Sys2Proof.Machine Sys2Proof.Laws

/-! ## The checks of a command against its row of R147 -/

/-- A row of R147 with a failing check: the command's own checks fail with the row's status. -/
theorem effectOf_of_statusOf_ne_ok {i : Instr} {s : State} (h : statusOf i s ≠ .ok) :
    effectOf i s = .error (statusOf i s) := by
  cases he : effectOf i s with
  | error st => rw [(effectOf_error he).1]
  | ok e => exact absurd (statusOf_of_success (effectOf_ok he)) h

/-- A row of R147 without a failing check: the command's own checks pass. -/
theorem effectOf_of_statusOf_ok {i : Instr} {s : State} (h : statusOf i s = .ok) : ∃ e, effectOf i s = .ok e := by
  cases he : effectOf i s with
  | error st =>
    obtain ⟨hst, hne⟩ := effectOf_error he
    exact absurd (hst.symm.trans h) hne
  | ok e => exact ⟨e, rfl⟩

section
variable {s : State} {w : CmdWord} {rest : List CmdWord}

/-- The status of a legal word is its command's. -/
theorem statusOfWord_of_legal {i : Instr} (h : decode w = .ok i) : statusOfWord w s = statusOf i s := by
  simp only [statusOfWord, h]

/-- The check for an illegal word comes before every other. -/
theorem statusOfWord_of_illegal {r : Illegal} (h : decode w = .error r) : statusOfWord w s = .illegalCommand := by
  simp only [statusOfWord, h]

/-- With no reset and an illegal word on `CMD`, the step is the answer to an illegal word. -/
theorem step_of_illegal {r : Illegal} (hr : s.rst = false) (hc : s.cmd = w :: rest) (h : decode w = .error r) :
    step s = illegalCommand w s := by
  simp [step, hr, nextWord, hc, h]

/-! ## The step on a word, by the word's status -/

/-- A word whose status is not `OK` is answered with it, whether the word is illegal or its command fails a check. -/
theorem step_of_statusOfWord_ne_ok (hr : s.rst = false) (hc : s.cmd = w :: rest) (hpay : PayloadThere (fieldsOf w) s)
    (h : statusOfWord w s ≠ .ok) : step s = .next (afterFailure (fieldsOf w) s (statusOfWord w s)) := by
  cases hd : decode w with
  | error r =>
    rw [step_of_illegal hr hc hd, statusOfWord_of_illegal hd]
    exact runCommand_error hpay _
  | ok i =>
    rw [statusOfWord_of_legal hd] at h ⊢
    rw [stepRunsTheDecodedCommand s w rest i hr hc hd]
    rw [← decode_fields hd] at hpay ⊢
    exact exec_error (effectOf_of_statusOf_ne_ok h) hpay

/-- A word whose status is `OK` is a legal one, and its command completes when the host takes output. -/
theorem step_of_statusOfWord_ok (hr : s.rst = false) (hc : s.cmd = w :: rest) (hpay : PayloadThere (fieldsOf w) s)
    (hready : s.outReady = true) (h : statusOfWord w s = .ok) :
    ∃ e : Effect, step s = .next (afterCommand (fieldsOf w) s e.S e.HM e.out .ok) := by
  cases hd : decode w with
  | error r => simp [statusOfWord_of_illegal hd] at h
  | ok i =>
    rw [statusOfWord_of_legal hd] at h
    obtain ⟨e, he⟩ := effectOf_of_statusOf_ok h
    rw [stepRunsTheDecodedCommand s w rest i hr hc hd]
    rw [← decode_fields hd] at hpay ⊢
    exact ⟨e, exec_ok he hpay (.inr hready)⟩

end

/-- Settles O47: a word with a status other than `OK` is illegal or its command fails a check, and either ends the same way. -/
theorem failedCommandChangesNothing : Obligations.FailedCommandChangesNothing :=
  fun _ _ _ => step_of_statusOfWord_ne_ok

/-- Settles O46: a word with status `OK` completes, any other ends with its status. -/
theorem firstFailingCheckGivesTheStatus : Obligations.FirstFailingCheckGivesTheStatus := by
  intro s w rest hr hc hpay hready
  by_cases h : statusOfWord w s = .ok
  · obtain ⟨e, he⟩ := step_of_statusOfWord_ok hr hc hpay hready h
    exact ⟨e.S, e.HM, e.out, h ▸ he⟩
  · exact ⟨s.S, s.HM, [], step_of_statusOfWord_ne_ok hr hc hpay h⟩

end Sys2Proof.Proofs

/-! # Waiting for the host, and the answer of every step (70_reset_and_hazards.md) -/

namespace Sys2Proof.Proofs

open Sys2Proof.Machine Sys2Proof.Laws

/-! ## Waiting -/

theorem step_of_no_word {s : State} (hr : s.rst = false) (hc : s.cmd = []) : step s = .next s := by
  simp [step, hr, nextWord, hc, waitForHost]

theorem exec_waits_for_payload {i : Instr} {s : State} (h : ¬ PayloadThere i.fields s) : exec i s = .next s := by
  rw [exec_eq_runCommand]
  exact runCommand_waits_for_payload h _

/-- A command whose checks pass and which has bytes to emit waits while the host takes none, its payload there or not. -/
theorem exec_waits_for_output {i : Instr} {s : State} {e : Effect} (he : effectOf i s = .ok e) (hout : e.out ≠ [])
    (hready : s.outReady = false) : exec i s = .next s := by
  rw [exec_eq_runCommand, he]
  exact runCommand_waits_for_output e hout hready

/-- A stream shorter than its present buffer lacks payload. -/
theorem not_payloadThere_of_short {f : Fields} {s : State}
    (h : (f.ibp = true ∧ s.din.length < f.dlen) ∨ (f.kbp = true ∧ s.kin.length < f.klen)) : ¬ PayloadThere f s := by
  rintro ⟨hdin, hkin⟩
  obtain ⟨hi, hshort⟩ | ⟨hk, hshort⟩ := h
  · exact Nat.not_le_of_lt hshort (hdin hi)
  · exact Nat.not_le_of_lt hshort (hkin hk)

/-- Settles O9: of the branches of the step, the one without a word is the wait. -/
theorem noWordNoChange : Obligations.NoWordNoChange := fun _ => step_of_no_word

/-- Settles O12: either short stream leaves the payload incomplete, and the framing is tested before any check. -/
theorem waitsForItsPayload : Obligations.WaitsForItsPayload :=
  fun _ _ h => exec_waits_for_payload (not_payloadThere_of_short h)

/-- Settles O13: the checks pass, and by the invariant the output has the announced length, so it is not empty. -/
theorem waitsForTheHostToTakeOutput : Obligations.WaitsForTheHostToTakeOutput := by
  intro i s hs hready hok hpos
  obtain ⟨e, he⟩ := effectOf_of_statusOf_ok hok
  have hlen : e.out.length = outputLength i s := success_out_length hs (effectOf_ok he)
  exact exec_waits_for_output he (List.ne_nil_of_length_pos (hlen ▸ hpos)) hready

/-! ## No step faults -/

/-- Every command answers a next state, whatever its checks say (60_exceptions.md R148: an error is a status). -/
theorem exec_answers (i : Instr) (s : State) : ∃ t, exec i s = .next t := by
  rw [exec_eq_runCommand]
  exact runCommand_answers _ _ _

/-- Settles O11: a reset, a wait, a command and an illegal word each answer a next state. -/
theorem everyStepAnswersNext : Obligations.EveryStepAnswersNext := by
  intro s
  cases hr : s.rst with
  | true => exact ⟨_, step_of_rst hr⟩
  | false =>
    cases hc : s.cmd with
    | nil => exact ⟨s, step_of_no_word hr hc⟩
    | cons w rest =>
      cases hd : decode w with
      | ok i =>
        rw [stepRunsTheDecodedCommand s w rest i hr hc hd]
        exact exec_answers i s
      | error r =>
        rw [step_of_illegal hr hc hd]
        exact runCommand_answers _ _ _

end Sys2Proof.Proofs
